-- ==== Sys2Proof/Word.lean ====
section
/-! DEFINITION. The bit-vector types of the block (00_scope.md R9 to R12). A 64-bit field is one type whether a rule reads it as
u64 or as s64 (30_encoding.md R74); the reading is chosen by the operation (`BitVec.toNat`, `BitVec.toInt`). -/

namespace Sys2Proof

/-- One byte of a serial frame (20_memory.md R63). -/
abbrev Byte := BitVec 8

/-- The 40 bits of a wire frame, byte 0 in bits 39..32 (30_encoding.md R78, R83). -/
abbrev Frame := BitVec 40

/-- A 64-bit operand field or register, u64 or s64 as its rule says (00_scope.md R9, 30_encoding.md R72, R74). -/
abbrev Word := BitVec 64

/-- A device timestamp or a wrap count, u32 (10_state.md R24, R25). -/
abbrev Stamp := BitVec 32

/-- The 64 bits of an IEEE 754 binary64 value (00_scope.md R12). -/
abbrev F64 := BitVec 64

end Sys2Proof
end

