-- ==== Sys2Proof/Machine/Frame.lean ====
section
/-! DEFINITION. The fields of the 5-byte wire frame and its checksum (30_encoding.md R78, R83, R84, R99; 20_memory.md R63). -/

namespace Sys2Proof.Machine

/-- `frame.byte[k] = A[39-8k : 32-8k]`, for k from 0 to 4 in wire order (00_scope.md R10, 30_encoding.md R78). -/
def frameByte (f : Frame) (k : Nat) : Byte := f.extractLsb' (32 - 8 * k) 8

/-- A frame from its five bytes in wire order (20_memory.md R65, 30_encoding.md R101). -/
def frameOfBytes (b0 b1 b2 b3 b4 : Byte) : Frame := b0 ++ b1 ++ b2 ++ b3 ++ b4

/-- The device timestamp, big-endian, bits 39..8 (20_memory.md R63, 30_encoding.md R83). -/
def frameTs (f : Frame) : Stamp := f.extractLsb' 8 32

/-- The direction bit, bit 7 (30_encoding.md R83). -/
def frameDir (f : Frame) : Bool := f.getLsbD 7

/-- The checksum field, bits 6..0 (30_encoding.md R83). -/
def frameCsum (f : Frame) : BitVec 7 := f.extractLsb' 0 7

/-- `(b0 ^ b1 ^ b2 ^ b3) & 0x7F` (30_encoding.md R84). -/
def checksumOf (b0 b1 b2 b3 : Byte) : BitVec 7 := (b0 ^^^ b1 ^^^ b2 ^^^ b3).extractLsb' 0 7

/-- The checksum the timestamp bytes of a frame ask for (30_encoding.md R84). -/
def frameExpected (f : Frame) : BitVec 7 :=
  checksumOf (frameByte f 0) (frameByte f 1) (frameByte f 2) (frameByte f 3)

/-- The frame's checksum is valid (30_encoding.md R84). -/
def frameChecksumValid (f : Frame) : Bool := frameExpected f == frameCsum f

/-- All five bytes equal 0xFF (30_encoding.md R85 step 1). -/
def frameIsSentinel (f : Frame) : Bool := f == BitVec.allOnes 40

/-- The data frame of a timestamp and a direction (30_encoding.md R99). -/
def frameOfData (ts : Stamp) (dir : Bool) : Frame :=
  ts ++ (BitVec.ofBool dir ++
    checksumOf (ts.extractLsb' 24 8) (ts.extractLsb' 16 8) (ts.extractLsb' 8 8) (ts.extractLsb' 0 8))

end Sys2Proof.Machine
end

