-- ==== Sys2Proof/Config.lean ====
section
/-! DEFINITION. The parameters of 00_scope.md R7. A parameter with a source value is that value here; a model of this hardware
instantiates it (log 15). The two OPEN parameters, and the bits IEEE 754 leaves free in a NaN, are opaque: nothing can be proved
of their values. The constraints of R8 are `Parameters.violation`; `State.launch` refuses parameters that break one. -/

namespace Sys2Proof

/-- `P_EMIT_POLARITY`: which accepted crossings may emit a CycleRecord (41_signal_processor.md R165, conflict C1). -/
inductive EmitPolarity where
  | both
  | risingOnly
  | fallingOnly
deriving DecidableEq, Repr

/-- `P_INTERP_ARITH`: the rules give the exact rational arithmetic only (00_scope.md R7, 93 I7). -/
inductive InterpArith where
  | exactRational
deriving DecidableEq, Repr

/-- `P_HIST_N`: capacity of the history ring. -/
abbrev Config.histN : Nat := 1000

/-- `P_ERR_LIMIT`: consecutive I/O errors that trip the breaker. -/
def Config.errLimit : Nat := 10

/-- `P_RESYNC_GAP_US`: arrival gap that forces resynchronisation, in microseconds. -/
def Config.resyncGapUs : Int := 60000000

/-- `P_DEBOUNCE_US`: minimum spacing of accepted crossings, in microseconds. -/
def Config.debounceUs : Int := 100000

/-- `P_DEG_PER_STEP`: angle units per position step. -/
def Config.degPerStep : Int := 2

/-- `P_PEAK_BIAS`: quantisation bias added before fitting. -/
def Config.peakBias : Int := 2

/-- `P_PEAK_TOL`: maximum accepted distance of the vertex value from the middle input. -/
def Config.peakTol : Int := 4

/-- `P_WRAP`: device timestamp modulus. -/
def Config.wrapModulus : Nat := 2 ^ 32

/-- `P_EMIT_POLARITY` of this hardware (00_scope.md R7, 92 D25). -/
def Config.emitPolarity : EmitPolarity := .both

/-- `P_RECONNECT_KEEPS_DEC_STATE` of this hardware (00_scope.md R7, 92 D12). -/
def Config.reconnectKeepsDecState : Bool := false

/-- `P_INTERP_ARITH` of this hardware (00_scope.md R7, 92 D21). -/
def Config.interpArith : InterpArith := .exactRational

/-- `P_TARE_STEP_FACTOR`, OPEN (00_scope.md R7, 92 D16, log 7): no source gives it. It is the value `State.reset` starts with. -/
opaque Config.tareStepFactor : Int

/-- `P_SENSOR_KINDS` less one, OPEN (00_scope.md R7, R8, 92 D27, log 8). Its 16 bits are the constraint 1 to 2^16 of R8. -/
opaque Config.lastSensorKind : BitVec 16

/-- `P_SENSOR_KINDS`, between 1 and 2^16 (00_scope.md R7, R8). It is the length of the sensor bank in `State.reset`. -/
def Config.sensorKinds : Nat := Config.lastSensorKind.toNat + 1

/-- The sign and payload of a NaN that a binary64 operation makes: IEEE 754 leaves them open (log 13). -/
opaque Config.nanPayload : F64 → F64 → F64

/-- A value for every parameter of 00_scope.md R7. -/
structure Parameters where
  histN : Nat
  errLimit : Nat
  resyncGapUs : Int
  debounceUs : Int
  degPerStep : Int
  peakBias : Int
  peakTol : Int
  wrapModulus : Nat
  tareStepFactor : Int
  sensorKinds : Nat
  emitPolarity : EmitPolarity
  reconnectKeepsDecState : Bool
  interpArith : InterpArith
deriving DecidableEq, Repr

/-- The constraint of 00_scope.md R8 that a value breaks, by the parameter it is on. -/
inductive ParameterError where
  /-- `P_HIST_N ≥ 3`: peak detection reads three entries. -/
  | histN
  /-- `P_ERR_LIMIT ≥ 1`. -/
  | errLimit
  /-- `P_RESYNC_GAP_US ≥ 0`. -/
  | resyncGapUs
  /-- `P_DEBOUNCE_US ≥ 0`. -/
  | debounceUs
  /-- `P_DEG_PER_STEP ≥ 1`. -/
  | degPerStep
  /-- `P_PEAK_TOL ≥ 0`. -/
  | peakTol
  /-- `P_SENSOR_KINDS ≥ 1` and `≤ 2^16`: the kind field has 16 bits. -/
  | sensorKinds
deriving DecidableEq, Repr

/-- The first constraint of 00_scope.md R8 that the values break, in the order R8 lists them. -/
def Parameters.violation (c : Parameters) : Option ParameterError :=
  if c.histN < 3 then some .histN
  else if c.errLimit < 1 then some .errLimit
  else if c.resyncGapUs < 0 then some .resyncGapUs
  else if c.debounceUs < 0 then some .debounceUs
  else if c.degPerStep < 1 then some .degPerStep
  else if c.peakTol < 0 then some .peakTol
  else if c.sensorKinds < 1 ∨ 2 ^ 16 < c.sensorKinds then some .sensorKinds
  else none

/-- The parameters of this hardware, for given values of the two OPEN ones (00_scope.md R7, log 15). -/
def Config.parameters (factor : Int) (kinds : Nat) : Parameters :=
  { histN := Config.histN, errLimit := Config.errLimit, resyncGapUs := Config.resyncGapUs, debounceUs := Config.debounceUs,
    degPerStep := Config.degPerStep, peakBias := Config.peakBias, peakTol := Config.peakTol,
    wrapModulus := Config.wrapModulus, tareStepFactor := factor, sensorKinds := kinds,
    emitPolarity := Config.emitPolarity, reconnectKeepsDecState := Config.reconnectKeepsDecState,
    interpArith := Config.interpArith }

/-- The parameters meet every constraint of 00_scope.md R8. -/
def Config.legal (factor : Int) (kinds : Nat) : Bool := (Config.parameters factor kinds).violation == none

/-- Of the OPEN parameters R8 constrains the number of sensor kinds only. -/
theorem Config.legal_iff (factor : Int) (kinds : Nat) : Config.legal factor kinds = true ↔ 1 ≤ kinds ∧ kinds ≤ 2 ^ 16 := by
  simp [Config.legal, Config.parameters, Parameters.violation, Config.histN, Config.errLimit, Config.resyncGapUs,
    Config.debounceUs, Config.degPerStep, Config.peakTol]
  omega

/-- The opaque number of sensor kinds is in the range of R8. -/
theorem Config.legal_sensorKinds (factor : Int) : Config.legal factor Config.sensorKinds = true := by
  have := Config.lastSensorKind.isLt
  rw [Config.legal_iff, Config.sensorKinds]; omega

end Sys2Proof
end

