-- ==== Sys2Proof/Syntax.lean ====
section
/-! DEFINITION. The input transaction (30_encoding.md R72) and the instructions: one constructor per row of
spec/opcode_table.json, with the operands the row's rule reads. -/

namespace Sys2Proof

/-- An input transaction, 260 bits: `op` selects it, each rule says which of A to D it reads (30_encoding.md R72). -/
structure Transaction where
  op : BitVec 4
  a : Word
  b : Word
  c : Word
  d : Word
deriving DecidableEq, Repr

/-- The transaction classes. An operand is the field the rule reads; fields a rule ignores are no operands. -/
inductive Instr where
  /-- RESERVED, op 0x0 (30_encoding.md R88). -/
  | reservedZero
  /-- CONNECT (30_encoding.md R77). -/
  | connect
  /-- FRAME_SENTINEL: all five bytes 0xFF; its arrival time is carried and ignored (40_frame_decoder.md R113). -/
  | frameSentinel (arrival : Word)
  /-- FRAME_BADCSUM: the frame as it stands; its arrival time is carried and ignored (40_frame_decoder.md R116). -/
  | frameBadcsum (frame : Frame) (arrival : Word)
  /-- FRAME_DATA_POS: direction 1; the checksum follows from the timestamp (40_frame_decoder.md R114, R117). -/
  | frameDataPos (ts : Stamp) (arrival : Word)
  /-- FRAME_DATA_NEG: direction 0 (40_frame_decoder.md R114, R117). -/
  | frameDataNeg (ts : Stamp) (arrival : Word)
  /-- RDERR (30_encoding.md R81). -/
  | rderr
  /-- SP_ADD (30_encoding.md R82). -/
  | spAdd (total count drift tare : Word)
  /-- SENSOR (30_encoding.md R80); an out-of-range kind is refused when it runs (R97). -/
  | sensor (kind : BitVec 16) (value : Word)
  /-- TARE_SET (30_encoding.md R86). -/
  | tareSet (value : Word)
  /-- TARE_GET (30_encoding.md R87). -/
  | tareGet
  /-- RESERVED, op 0x8 to 0xF, with the three low bits of op (30_encoding.md R88). -/
  | reservedHigh (low : BitVec 3)
deriving DecidableEq, Repr

end Sys2Proof
end

