-- ==== Sys2Proof/WellFormed.lean ====
section
/-! DEFINITION. Which instructions an input transaction can stand for. Every operand of every class takes every value of its
width, but for the frame of FRAME_BADCSUM (30_encoding.md R85, R89). -/

namespace Sys2Proof

open Sys2Proof.Machine in
/-- A FRAME_BADCSUM frame is not the sentinel and its checksum is wrong (30_encoding.md R85, R89). -/
def Instr.wellFormed : Instr → Bool
  | .frameBadcsum frame _ => !frameIsSentinel frame && !frameChecksumValid frame
  | .reservedZero => true
  | .connect => true
  | .frameSentinel _ => true
  | .frameDataPos _ _ => true
  | .frameDataNeg _ _ => true
  | .rderr => true
  | .spAdd _ _ _ _ => true
  | .sensor _ _ => true
  | .tareSet _ => true
  | .tareGet => true
  | .reservedHigh _ => true

end Sys2Proof
end

