-- ==== Sys2Proof/Decode.lean ====
section
/-! DEFINITION. Decoding an input transaction into its class (30_encoding.md R75, R85, R103), the encoder, the transaction as a
260-bit number (log 5), and the script's pseudo-transactions (R101, R102). -/

namespace Sys2Proof

open Sys2Proof.Machine

/-- The class of a FRAME: sentinel, then checksum, then direction (30_encoding.md R85, 60_exceptions.md R224). -/
def decodeFrame (frame : Frame) (arrival : Word) : Instr :=
  if frameIsSentinel frame then .frameSentinel arrival
  else if !frameChecksumValid frame then .frameBadcsum frame arrival
  else if frameDir frame then .frameDataPos (frameTs frame) arrival
  else .frameDataNeg (frameTs frame) arrival

/-- Decoding is total on all 2^260 transactions (30_encoding.md R75, R103); an out-of-range SENSOR kind keeps its class and is
refused when it runs (R80, R97, log 11). -/
def decode (t : Transaction) : Instr :=
  if t.op = 0x0 then .reservedZero
  else if t.op = 0x1 then .connect
  else if t.op = 0x2 then decodeFrame (t.a.extractLsb' 0 40) t.b
  else if t.op = 0x3 then .rderr
  else if t.op = 0x4 then .spAdd t.a t.b t.c t.d
  else if t.op = 0x5 then .sensor (t.a.extractLsb' 0 16) t.b
  else if t.op = 0x6 then .tareSet t.a
  else if t.op = 0x7 then .tareGet
  else .reservedHigh (t.op.extractLsb' 0 3)

/-- The transaction of a FRAME: the frame in A[39:0], the arrival in B (30_encoding.md R78, R79). -/
def encodeFrame (frame : Frame) (arrival : Word) : Transaction := ⟨0x2, frame.setWidth 64, arrival, 0, 0⟩

/-- The transaction of an instruction, every ignored field zero (30_encoding.md R75 to R88, R99, R101). -/
def encode : Instr → Transaction
  | .reservedZero => ⟨0x0, 0, 0, 0, 0⟩
  | .connect => ⟨0x1, 0, 0, 0, 0⟩
  | .frameSentinel arrival => encodeFrame (BitVec.allOnes 40) arrival
  | .frameBadcsum frame arrival => encodeFrame frame arrival
  | .frameDataPos ts arrival => encodeFrame (frameOfData ts true) arrival
  | .frameDataNeg ts arrival => encodeFrame (frameOfData ts false) arrival
  | .rderr => ⟨0x3, 0, 0, 0, 0⟩
  | .spAdd total count drift tare => ⟨0x4, total, count, drift, tare⟩
  | .sensor kind value => ⟨0x5, kind.setWidth 64, value, 0, 0⟩
  | .tareSet value => ⟨0x6, value, 0, 0, 0⟩
  | .tareGet => ⟨0x7, 0, 0, 0, 0⟩
  | .reservedHigh low => ⟨1#1 ++ low, 0, 0, 0, 0⟩

/-- The classes of `classify` (30_encoding.md R103). -/
inductive TransactionClass where
  | connect
  | frameSentinel
  | frameBadcsum
  | frameDataPos
  | frameDataNeg
  | rderr
  | spAdd
  | sensor
  | tareSet
  | tareGet
  | refused
deriving DecidableEq, Repr

/-- The class of an instruction where there are `kinds` sensor kinds (30_encoding.md R103). -/
def Instr.classOf (kinds : Nat) : Instr → TransactionClass
  | .reservedZero => .refused
  | .connect => .connect
  | .frameSentinel _ => .frameSentinel
  | .frameBadcsum _ _ => .frameBadcsum
  | .frameDataPos _ _ => .frameDataPos
  | .frameDataNeg _ _ => .frameDataNeg
  | .rderr => .rderr
  | .spAdd _ _ _ _ => .spAdd
  | .sensor kind _ => if kind.toNat < kinds then .sensor else .refused
  | .tareSet _ => .tareSet
  | .tareGet => .tareGet
  | .reservedHigh _ => .refused

/-- The match and mask over `op` of an instruction's row in spec/opcode_table.json (30_encoding.md R104). -/
def Instr.opMatchMask : Instr → BitVec 4 × BitVec 4
  | .reservedZero => (0x0, 0xF)
  | .connect => (0x1, 0xF)
  | .frameSentinel _ => (0x2, 0xF)
  | .frameBadcsum _ _ => (0x2, 0xF)
  | .frameDataPos _ _ => (0x2, 0xF)
  | .frameDataNeg _ _ => (0x2, 0xF)
  | .rderr => (0x3, 0xF)
  | .spAdd _ _ _ _ => (0x4, 0xF)
  | .sensor _ _ => (0x5, 0xF)
  | .tareSet _ => (0x6, 0xF)
  | .tareGet => (0x7, 0xF)
  | .reservedHigh _ => (0x8, 0x8)

/-- A transaction read from a number: op in bits 3..0 as the opcode table has it, then A, B, C and D (log 5). -/
def Transaction.ofBits (w : Nat) : Transaction :=
  ⟨BitVec.ofNat 4 w, BitVec.ofNat 64 (w >>> 4), BitVec.ofNat 64 (w >>> 68), BitVec.ofNat 64 (w >>> 132),
    BitVec.ofNat 64 (w >>> 196)⟩

/-- The number of a transaction, 260 bits (log 5). -/
def Transaction.toBits (t : Transaction) : Nat :=
  t.op.toNat + t.a.toNat * 2 ^ 4 + t.b.toNat * 2 ^ 68 + t.c.toNat * 2 ^ 132 + t.d.toNat * 2 ^ 196

/-- Why a number is no transaction. -/
inductive DecodeError where
  /-- It has a bit set above the 260 bits of a transaction (30_encoding.md R72). -/
  | longerThanTransaction
deriving DecidableEq, Repr

/-- Decoding any number: 260 bits decode (30_encoding.md R103), a longer one is rejected by name. -/
def decodeBits (w : Nat) : Except DecodeError Instr :=
  if w < 2 ^ 260 then .ok (decode (Transaction.ofBits w)) else .error .longerThanTransaction

/-- The instruction of the low `nbits` bits of `w`, every bit above them zero (log 5). -/
def decodeTableWord (nbits w : Nat) : Option Instr := (decodeBits (w % 2 ^ nbits)).toOption

/-- `FRAME b0 b1 b2 b3 b4 @arrival` (30_encoding.md R101). -/
def Transaction.scriptFrame (b0 b1 b2 b3 b4 : Byte) (arrival : Word) : Transaction :=
  encodeFrame (frameOfBytes b0 b1 b2 b3 b4) arrival

/-- `FRAMEV ts +|- @arrival`, with `dir = true` for `+` (30_encoding.md R102). -/
def Transaction.scriptFramev (ts : Stamp) (dir : Bool) (arrival : Word) : Transaction :=
  encodeFrame (frameOfData ts dir) arrival

/-- `SENTINEL @arrival` (30_encoding.md R102). -/
def Transaction.scriptSentinel (arrival : Word) : Transaction := Transaction.scriptFrame 0xFF 0xFF 0xFF 0xFF 0xFF arrival

end Sys2Proof
end

