-- ==== Sys2Proof/Machine/State.lean ====
section
/-! DEFINITION. The state of the block as plain data (10_state.md R21 to R44), the output events (30_encoding.md R91), why a step
can stop, and the state after power-on reset (70_reset_and_hazards.md R251). -/

namespace Sys2Proof.Machine

/-- The serial-link connection state (10_state.md R30). -/
inductive Link where
  | disconnected
  | connected
deriving DecidableEq, Repr

/-- The codes of a STATUS event (30_encoding.md R91, 60_exceptions.md R223). -/
inductive StatusCode where
  | connected
  | disconnected
  | overflow
  | error
deriving DecidableEq, Repr

/-- The reasons of a DIAG event (30_encoding.md R91). -/
inductive DiagReason where
  | csumMismatch
deriving DecidableEq, Repr

/-- A Reading, before or after the tare: `{total : u64, count : s64, drift : s64}` (10_state.md R33, 30_encoding.md R93). -/
structure Reading where
  total : Word
  count : Word
  drift : Word
deriving DecidableEq, Repr

/-- An output event (30_encoding.md R91). -/
inductive Event where
  | status (code : StatusCode) (terminal : Bool)
  | reading (r : Reading)
  | cycle (total drift : Word) (amplitude period : F64) (sens : List Word)
  | tareValue (value : Word)
  | diag (reason : DiagReason)
deriving DecidableEq, Repr

/-- A last peak: `{valid, time : s64, position : f64}` (10_state.md R36, R37). -/
structure Peak where
  valid : Bool
  time : Word
  position : F64
deriving DecidableEq, Repr

/-- The last accepted zero crossing (10_state.md R38). -/
structure Crossing where
  valid : Bool
  time : Word
  rising : Bool
deriving DecidableEq, Repr

/-- The decoder group `S.dec` (10_state.md R24 to R32). -/
structure Decoder where
  lastTs : Stamp
  ovfCount : Stamp
  position : Word
  epochOffset : Word
  firstDev : Word
  lastArrival : Word
  link : Link
  errCount : Nat
  synced : Bool
deriving DecidableEq, Repr

/-- The processor group `S.sp` (10_state.md R33 to R41). The sensor bank has `P_SENSOR_KINDS` entries (log 8). -/
structure Processor where
  hist : Vector Reading Config.histN
  wr : Fin Config.histN
  nfill : Nat
  posPeak : Peak
  negPeak : Peak
  lastZc : Crossing
  posHalf : F64
  negHalf : F64
  sens : List Word
deriving DecidableEq, Repr

/-- The state of the block. `dec`, `sp`, `tare` and `refused` are the spec's (10_state.md R21). The last three fields are the
model's own: `tareFactor` is the OPEN parameter `P_TARE_STEP_FACTOR`, an argument no rule writes (00_scope.md R7, log 7); `port`
holds the transactions presented and not yet consumed (30_encoding.md R72, R73, log 1); `out` is the output stream since launch,
oldest first, which no rule reads (30_encoding.md R92, log 4). -/
structure State where
  dec : Decoder
  sp : Processor
  tare : Word
  refused : Bool
  tareFactor : Int
  port : List Transaction
  out : List Event
deriving DecidableEq, Repr

/-- Why a step can stop. -/
inductive Fault where
  /-- `HistRead(k)` with k = 0 or k > nfill. Raised by `Processor.histRead` only; no rule of the block performs such a read
  (20_memory.md R52, 60_exceptions.md R235). Safe: the machine stops instead of returning an unwritten entry. -/
  | histUnfilled (k : Nat)
  /-- `rne` of a rational outside the binary64 finite range. Raised by `rne` only, and through it by the binary64 operations; no
  rule of the block reaches it (93_implementation_defined.md I15, 00_scope.md R12, log 14). Safe: the machine stops instead of
  storing an infinity. -/
  | rneOutOfRange
deriving DecidableEq, Repr

/-- Why an instruction can be refused. The spec's own refusal is an effect on `State.refused` and not one of these (log 11). -/
inductive Refusal where
  /-- No meaning yet: raised by a refused arm of `exec` only. Safe: nothing follows about the instruction. -/
  | notModelled (mnemonic : String)
deriving DecidableEq, Repr

/-- The decoder after power-on reset (70_reset_and_hazards.md R251). -/
def Decoder.reset : Decoder :=
  { lastTs := 0, ovfCount := 0, position := 0, epochOffset := 0, firstDev := 0, lastArrival := 0,
    link := .disconnected, errCount := 0, synced := false }

/-- The processor after power-on reset, for a number of sensor kinds that 00_scope.md R8 allows (70_reset_and_hazards.md R251). The
ring's entries and the fields of an invalid peak or crossing are unspecified there and zero here (logs 9, 10). The half-periods are
+0.0, all bits zero. -/
def Processor.reset (kinds : Nat) (_legal : 1 ≤ kinds ∧ kinds ≤ 2 ^ 16) : Processor :=
  { hist := Vector.replicate Config.histN ⟨0, 0, 0⟩, wr := ⟨0, by decide⟩, nfill := 0,
    posPeak := ⟨false, 0, 0⟩, negPeak := ⟨false, 0, 0⟩, lastZc := ⟨false, 0, false⟩,
    posHalf := 0, negHalf := 0, sens := List.replicate kinds 0 }

/-- Power-on reset for given values of the OPEN parameters, which must meet the constraints of 00_scope.md R8
(70_reset_and_hazards.md R251, 00_scope.md R7). -/
def State.resetWith (factor : Int) (kinds : Nat) (legal : Config.legal factor kinds = true) : State :=
  { dec := Decoder.reset, sp := Processor.reset kinds ((Config.legal_iff factor kinds).1 legal), tare := 0, refused := false, tareFactor := factor,
    port := [], out := [] }

/-- Power-on reset, the OPEN parameters at the opaque constants of Config (logs 7, 8). -/
def State.reset : State :=
  State.resetWith Config.tareStepFactor Config.sensorKinds (Config.legal_sensorKinds Config.tareStepFactor)

end Sys2Proof.Machine
end

