-- ==== Sys2Proof/Machine/Operands.lean ====
section
/-! DEFINITION. The operand readings and conversions of 00_scope.md R11, and what a rule computes from a Reading before it tests
anything (41_signal_processor.md R152, R154, R158; 40_frame_decoder.md R120, R122). -/

namespace Sys2Proof.Machine

/-- `asS64(u)`: the signed reading of a 64-bit field (00_scope.md R11, 30_encoding.md R74). -/
def asS64 (u : Word) : Int := u.toInt

/-- The unsigned reading of a 64-bit field as an integer (00_scope.md R11, 30_encoding.md R74). -/
def asU64 (u : Word) : Int := Int.ofNat u.toNat

/-- The 64 bits of `wrapS_64(x)`, which are those of `wrapU_64(x)` (00_scope.md R11). -/
def wrap64 (x : Int) : Word := BitVec.ofInt 64 x

/-- `cum = zext_64(ts) + zext_64(ovf_count) * 2^32` (40_frame_decoder.md R120). -/
def cumulativeTime (ovf ts : Stamp) : Word :=
  ts.setWidth 64 + ovf.setWidth 64 * BitVec.ofNat 64 Config.wrapModulus

/-- The tare-adjusted Count, the product exact before the wrap (41_signal_processor.md R152). -/
def tareAdjusted (factor : Int) (count tare : Word) : Word := wrap64 (asS64 count - asS64 tare * factor)

/-- The angle of an entry, exact (41_signal_processor.md R154). -/
def angle (e : Reading) : Int := asS64 e.count * Config.degPerStep

/-- The time of an entry, exact (41_signal_processor.md R158). -/
def timeOf (e : Reading) : Int := asS64 e.total

end Sys2Proof.Machine
end

