-- ==== Sys2Proof/Machine/Flags.lean ====
section
/-! DEFINITION. The conditions the rules test. The block has no condition codes (10_state.md R23): each is computed where it is
tested and none is stored. -/

namespace Sys2Proof.Machine

/-- A FRAME or RDERR transaction, the only ones that can be held (30_encoding.md R76). -/
def isSerialRead (t : Transaction) : Bool := t.op == 0x2 || t.op == 0x3

/-- The block holds `t`: a serial read while the link is DISCONNECTED (40_frame_decoder.md R112). -/
def State.holds (s : State) (t : Transaction) : Bool := s.dec.link == .disconnected && isSerialRead t

/-- A timestamp wrap: `ts < last_ts`, unsigned (40_frame_decoder.md R118). -/
def Decoder.wrapped (d : Decoder) (ts : Stamp) : Bool := ts.toNat < d.lastTs.toNat

/-- The resynchronisation gap test, signed and strict (40_frame_decoder.md R121). -/
def Decoder.gapExceeded (d : Decoder) (arrival : Word) : Bool :=
  Config.resyncGapUs < asS64 (wrap64 (asS64 arrival - asS64 d.lastArrival))

/-- The polarity of the crossing between two consecutive entries, `some true` for rising (41_signal_processor.md R155). -/
def crossingOf (prev cur : Reading) : Option Bool :=
  if angle prev ≤ 0 ∧ 0 < angle cur then some true
  else if 0 ≤ angle prev ∧ angle cur < 0 then some false
  else none

/-- A crossing at time `tc` falls inside the debounce window of the last accepted one (41_signal_processor.md R156). -/
def Processor.debounced (p : Processor) (tc : Int) : Bool :=
  p.lastZc.valid && decide (tc - asS64 p.lastZc.time < Config.debounceUs)

/-- The positive-peak window test (41_signal_processor.md R160). -/
def positiveWindow (p1 p2 p3 : Int) : Bool := decide (p2 > p1) && decide (p2 > p3) && decide (p2 > 0)

/-- The negative-peak window test (41_signal_processor.md R160). -/
def negativeWindow (p1 p2 p3 : Int) : Bool := decide (p2 < p1) && decide (p2 < p3) && decide (p2 < 0)

/-- `P_EMIT_POLARITY` allows a record on a crossing of this polarity (41_signal_processor.md R165). -/
def polarityAllows (policy : EmitPolarity) (rising : Bool) : Bool :=
  match policy with
  | .both => true
  | .risingOnly => rising
  | .fallingOnly => !rising

end Sys2Proof.Machine
end

