-- ==== Sys2Proof/Machine/Ops.lean ====
section
/-! DEFINITION. The named operations over the state: the port, the output stream, the history ring, the sensor bank, the refusal
mark, the decoder's synchronisation steps, the breaker (the block's one trap-like entry) and CONNECT (its return). -/

namespace Sys2Proof.Machine

/-- The transaction the next step takes: the first presented one that is not held; a held one only where all are held
(30_encoding.md R73, R76, logs 1, 2). -/
def State.presented (s : State) : Option Transaction :=
  match s.port.find? (fun t => !s.holds t) with
  | some t => some t
  | none => s.port.head?

/-- The port after the block has consumed the first transaction it does not hold (30_encoding.md R73, log 1). -/
def State.consume (s : State) : State := { s with port := s.port.eraseP (fun t => !s.holds t) }

/-- `emit`: events go to the end of the output stream in statement order (00_scope.md R13, 30_encoding.md R92). -/
def State.emit (s : State) (events : List Event) : State := { s with out := s.out ++ events }

/-- The sticky refusal mark (30_encoding.md R97, 10_state.md R43). -/
def State.markRefused (s : State) : State := { s with refused := true }

/-- Replace the decoder group. -/
def State.withDec (s : State) (d : Decoder) : State := { s with dec := d }

/-- Replace the processor group. -/
def State.withSp (s : State) (p : Processor) : State := { s with sp := p }

/-- Write the tare register (42_control.md R201). -/
def State.withTare (s : State) (v : Word) : State := { s with tare := v }

/-- `refuse`: the transaction is consumed and the mark set, nothing else (30_encoding.md R97). -/
def State.refuse (s : State) : State := s.consume.markRefused

/-- A serial transaction: held while the link is DISCONNECTED, when nothing at all changes; otherwise consumed and run
(40_frame_decoder.md R112, 30_encoding.md R76). -/
def State.serial (s : State) (run : State → Host.Outcome State Fault Refusal) : Host.Outcome State Fault Refusal :=
  if s.dec.link = .disconnected then .next s else run s.consume

/-- `HistWrite(e)` (20_memory.md R53). -/
def Processor.histWrite (p : Processor) (e : Reading) : Processor :=
  { p with
    hist := p.hist.set p.wr e
    wr := ⟨(p.wr.val + 1) % Config.histN, Nat.mod_lt _ (by decide)⟩
    nfill := min Config.histN (p.nfill + 1) }

/-- `HistRead(k)`, a fault outside `1 ≤ k ≤ nfill` (20_memory.md R52). -/
def Processor.histRead (p : Processor) (k : Nat) : Except Fault Reading :=
  if 1 ≤ k ∧ k ≤ p.nfill then .ok (p.hist[(p.wr.val + Config.histN - k) % Config.histN]'(Nat.mod_lt _ (by decide)))
  else .error (.histUnfilled k)

/-- A kind the block has (30_encoding.md R80). -/
def Processor.hasKind (p : Processor) (kind : BitVec 16) : Bool := kind.toNat < p.sens.length

/-- `S.sp.sens[kind] <- value` (41_signal_processor.md R168). -/
def Processor.sensWrite (p : Processor) (kind : BitVec 16) (value : Word) : Processor :=
  { p with sens := p.sens.set kind.toNat value }

/-- Every non-sentinel FRAME resets the error counter (40_frame_decoder.md R115). -/
def Decoder.clearErrors (d : Decoder) : Decoder := { d with errCount := 0 }

/-- Wrap detection (40_frame_decoder.md R118). -/
def Decoder.countWrap (d : Decoder) (ts : Stamp) : Decoder :=
  if d.wrapped ts then { d with ovfCount := d.ovfCount + 1 } else d

/-- `S.dec.last_ts <- ts` (40_frame_decoder.md R119). -/
def Decoder.noteTimestamp (d : Decoder) (ts : Stamp) : Decoder := { d with lastTs := ts }

/-- First synchronisation, or resynchronisation after a gap, or neither (40_frame_decoder.md R120, R121). -/
def Decoder.synchronise (d : Decoder) (ts : Stamp) (arrival : Word) : Decoder :=
  if d.synced = false then
    { d with synced := true, epochOffset := arrival, firstDev := cumulativeTime d.ovfCount ts }
  else if d.gapExceeded arrival then
    { d with ovfCount := 0, epochOffset := arrival, firstDev := cumulativeTime 0 ts }
  else d

/-- `S.dec.last_arrival <- arrival` (40_frame_decoder.md R123). -/
def Decoder.noteArrival (d : Decoder) (arrival : Word) : Decoder := { d with lastArrival := arrival }

/-- The position moves by one step (40_frame_decoder.md R124). -/
def Decoder.move (d : Decoder) (dir : Bool) : Decoder :=
  { d with position := wrap64 (asS64 d.position + if dir then 1 else -1) }

/-- The decoder's writes for an accepted data frame, in the order of 40_frame_decoder.md R114. -/
def Decoder.acceptFrame (d : Decoder) (dir : Bool) (ts : Stamp) (arrival : Word) : Decoder :=
  (((((d.clearErrors).countWrap ts).noteTimestamp ts).synchronise ts arrival).noteArrival arrival).move dir

/-- correctedEpochMicros, from a decoder that has accepted the frame (40_frame_decoder.md R122). -/
def Decoder.corrected (d : Decoder) (ts : Stamp) : Word :=
  let elapsed := wrap64 (asU64 (cumulativeTime d.ovfCount ts) - asU64 d.firstDev)
  wrap64 (asS64 d.epochOffset + asS64 elapsed)

/-- The Reading of an accepted frame, from the decoder that has accepted it (40_frame_decoder.md R122, R125). -/
def Decoder.reading (d : Decoder) (ts : Stamp) (arrival : Word) : Reading :=
  ⟨d.corrected ts, d.position, wrap64 (asS64 arrival - asU64 (d.corrected ts))⟩

/-- BREAKER, the one trap-like entry: the terminal ERROR, the link down, DISCONNECTED (40_frame_decoder.md R127,
60_exceptions.md R226). It saves nothing. -/
def State.breaker (s : State) : State :=
  (s.withDec { s.dec with link := .disconnected }).emit [.status .error true, .status .disconnected false]

/-- One more read error, below the limit or at it (40_frame_decoder.md R126). -/
def State.readError (s : State) : State :=
  let s' := s.withDec { s.dec with errCount := s.dec.errCount + 1 }
  if s'.dec.errCount < Config.errLimit then s'.emit [.status .error false] else s'.breaker

/-- The decoder after a CONNECT, for either value of `P_RECONNECT_KEEPS_DEC_STATE` (40_frame_decoder.md R111,
70_reset_and_hazards.md R253). -/
def Decoder.connectReset (keeps : Bool) (d : Decoder) : Decoder :=
  if keeps then { d with errCount := 0, link := .connected } else { Decoder.reset with link := .connected }

/-- CONNECT, the one return from the breaker and also a reconnect (40_frame_decoder.md R111, 60_exceptions.md R227). -/
def State.connect (s : State) : State :=
  let events : List Event := if s.dec.link = .connected then [.status .disconnected false] else []
  ((s.emit events).withDec (s.dec.connectReset Config.reconnectKeepsDecState)).emit [.status .connected false]

end Sys2Proof.Machine
end

