-- ==== Sys2Proof/Machine/Control.lean ====
section
/-! DEFINITION. The control surface, TARE_SET and TARE_GET (42_control.md R201, R202), and the reserved opcodes
(30_encoding.md R88, R97). -/

namespace Sys2Proof.Machine

/-- TARE_SET (42_control.md R201). -/
def execTareSet (value : Word) (s : State) : Host.Outcome State Fault Refusal := .next (s.consume.withTare value)

/-- TARE_GET (42_control.md R202). -/
def execTareGet (s : State) : Host.Outcome State Fault Refusal := .next (s.consume.emit [.tareValue s.tare])

/-- RESERVED, op 0x0 (30_encoding.md R88, R97). -/
def execReservedZero (s : State) : Host.Outcome State Fault Refusal := .next s.refuse

/-- RESERVED, op 0x8 to 0xF (30_encoding.md R88, R97). -/
def execReservedHigh (_low : BitVec 3) (s : State) : Host.Outcome State Fault Refusal := .next s.refuse

end Sys2Proof.Machine
end

