-- ==== Sys2Proof/Machine/Float64.lean ====
section
/-! DEFINITION. The IEEE 754 binary64 operations of 00_scope.md R12, on bit patterns: `rne`, a fault outside the finite
range (93 I15), and the correctly rounded `⊕`, `⊖` and `⊘`. What IEEE 754 adds to R12 (signed zeros, infinities, NaN) is in logs
12 to 14. -/

namespace Sys2Proof.Machine

/-- The biased exponent field. -/
def f64Exponent (x : F64) : Nat := (x.extractLsb' 52 11).toNat

/-- The fraction field. -/
def f64Fraction (x : F64) : Nat := (x.extractLsb' 0 52).toNat

/-- A finite value: the exponent field is not all ones. -/
def f64Finite (x : F64) : Bool := f64Exponent x != 2047

/-- A NaN: the exponent field all ones, the fraction not zero. -/
def f64IsNan (x : F64) : Bool := f64Exponent x == 2047 && f64Fraction x != 0

/-- Either zero. -/
def f64IsZero (x : F64) : Bool := f64Exponent x == 0 && f64Fraction x == 0

/-- The magnitude of a finite value. -/
def f64Magnitude (x : F64) : Rat :=
  if f64Exponent x = 0 then mkRat (f64Fraction x) (2 ^ 1074)
  else if f64Exponent x < 1075 then mkRat (2 ^ 52 + f64Fraction x : Nat) (2 ^ (1075 - f64Exponent x))
  else (((2 ^ 52 + f64Fraction x) * 2 ^ (f64Exponent x - 1075) : Nat) : Rat)

/-- The rational a finite bit pattern stands for (00_scope.md R12). -/
def f64Value (x : F64) : Rat := if x.msb then -f64Magnitude x else f64Magnitude x

/-- The pattern with this sign and magnitude bits. -/
def f64WithSign (negative : Bool) (magnitude : Nat) : F64 := BitVec.ofBool negative ++ BitVec.ofNat 63 magnitude

/-- The magnitude bits of infinity. -/
def f64InfinityBits : Nat := 2047 * 2 ^ 52

/-- The exponent `e` with `2^e ≤ n/d < 2^(e+1)`, for positive `n` and `d`. -/
def floorLog2Ratio (n d : Nat) : Int :=
  let k : Int := (n.log2 : Int) - (d.log2 : Int)
  if d <<< k.toNat ≤ n <<< (-k).toNat then k else k - 1

/-- `n / (d * 2^lsb)` rounded to the nearest integer, ties to even. -/
def roundHalfEven (n d : Nat) (lsb : Int) : Nat :=
  let num := n <<< (-lsb).toNat
  let den := d <<< lsb.toNat
  let q := num / den
  let r := num % den
  if 2 * r < den then q else if den < 2 * r then q + 1 else q + q % 2

/-- The magnitude bits of the positive rational `n/d`, rounded: 53 significant bits, or a multiple of 2^-1074 below the normal
range; the carry out of a rounded-up significand moves the exponent. Overflow is infinity (00_scope.md R12). -/
def roundMagnitude (n d : Nat) : Nat :=
  let lsb : Int := max (floorLog2Ratio n d - 52) (-1074)
  min ((lsb + 1074).toNat * 2 ^ 52 + roundHalfEven n d lsb) f64InfinityBits

/-- The binary64 value nearest `q`, ties to even, overflow to ±infinity; of 0 it is +0.0 (00_scope.md R12, log 12). -/
def roundNearest (q : Rat) : F64 :=
  if q.num = 0 then 0 else f64WithSign (decide (q.num < 0)) (roundMagnitude q.num.natAbs q.den)

/-- The largest finite value. -/
def f64Largest : F64 := 0x7FEFFFFFFFFFFFFF

/-- `rne(q)` (00_scope.md R12); of a rational outside the finite range it is a fault (93_implementation_defined.md I15, log 14).
Irreducible, so that no unification unfolds the comparison with a number of 1024 bits. -/
@[irreducible] def rne (q : Rat) : Except Fault F64 :=
  if |q| ≤ f64Value f64Largest then .ok (roundNearest q) else .error .rneOutOfRange

/-- A quiet NaN made from two operands; its sign and payload are free (log 13). -/
def f64MakeNan (x y : F64) : F64 := 0x7FF8000000000000 ||| (Config.nanPayload x y &&& 0x8007FFFFFFFFFFFF)

/-- The other sign. -/
def f64Neg (x : F64) : F64 := x ^^^ 0x8000000000000000

/-- `x ⊕ y` (00_scope.md R12). An exact zero sum is +0.0 unless both operands are negative zeros (log 12). -/
def f64Add (x y : F64) : Except Fault F64 :=
  if f64IsNan x || f64IsNan y then .ok (f64MakeNan x y)
  else if !f64Finite x then .ok (if !f64Finite y && x.msb != y.msb then f64MakeNan x y else x)
  else if !f64Finite y then .ok y
  else if f64Value x + f64Value y = 0 then .ok (f64WithSign (x.msb && y.msb) 0)
  else rne (f64Value x + f64Value y)

/-- `x ⊖ y` (00_scope.md R12). -/
def f64Sub (x y : F64) : Except Fault F64 := f64Add x (f64Neg y)

/-- `x ⊘ y` (00_scope.md R12). -/
def f64Div (x y : F64) : Except Fault F64 :=
  if f64IsNan x || f64IsNan y then .ok (f64MakeNan x y)
  else if !f64Finite x then
    .ok (if !f64Finite y then f64MakeNan x y else f64WithSign (x.msb != y.msb) f64InfinityBits)
  else if !f64Finite y then .ok (f64WithSign (x.msb != y.msb) 0)
  else if f64IsZero y then
    .ok (if f64IsZero x then f64MakeNan x y else f64WithSign (x.msb != y.msb) f64InfinityBits)
  else if f64IsZero x then .ok (f64WithSign (x.msb != y.msb) 0)
  else rne (f64Value x / f64Value y)

/-- `x > 0` as a binary64 comparison: a NaN and both zeros are not positive (41_signal_processor.md R165). -/
def f64Positive (x : F64) : Bool := !x.msb && !f64IsNan x && !f64IsZero x

/-- The binary64 value 1.0e6, exactly representable (41_signal_processor.md R159). -/
def f64Million : F64 := 0x412E848000000000

/-- `HALF(Δ) = rne(Δ) ⊘ 1.0e6` (41_signal_processor.md R159). -/
def halfPeriod (delta : Int) : Except Fault F64 :=
  match rne (delta : Rat) with
  | .error f => .error f
  | .ok x => f64Div x f64Million

end Sys2Proof.Machine
end

