-- ==== Sys2Proof/Machine/Fit.lean ====
section
/-! DEFINITION. The three-point quadratic fit (41_signal_processor.md R161 to R164), exact in the rationals
(`P_INTERP_ARITH = EXACT`). -/

namespace Sys2Proof.Machine

/-- The coefficients of `y = a·x² + b·x + c` with the time origin at t2 (41_signal_processor.md R161). -/
structure Parabola where
  a : Rat
  b : Rat
  c : Rat
deriving DecidableEq, Repr

/-- An accepted vertex `(t*, v*)` (41_signal_processor.md R162). -/
structure Vertex where
  time : Rat
  value : Rat
deriving DecidableEq, Repr

/-- The unique parabola through three points, or none where two abscissae coincide (41_signal_processor.md R161). -/
def parabolaThrough (t1 y1 t2 y2 t3 y3 : Int) : Option Parabola :=
  let x1 : Rat := (t1 - t2 : Int)
  let x3 : Rat := (t3 - t2 : Int)
  let u1 : Rat := (y1 - y2 : Int)
  let u3 : Rat := (y3 - y2 : Int)
  let den := x1 * x3 * (x1 - x3)
  if x1 = 0 ∨ x3 = 0 ∨ x1 = x3 then none
  else some ⟨(u1 * x3 - u3 * x1) / den, (u3 * x1 ^ 2 - u1 * x3 ^ 2) / den, (y2 : Int)⟩

/-- FIT with `P_INTERP_ARITH = EXACT`: the vertex where the fit is accepted, both bounds inclusive, the sign of `a` not tested
(41_signal_processor.md R161, R162, 90_conflicts.md C4). -/
def fitExact (t1 y1 t2 y2 t3 y3 : Int) : Option Vertex :=
  match parabolaThrough t1 y1 t2 y2 t3 y3 with
  | none => none
  | some p =>
    if p.a = 0 then none
    else
      let x := -p.b / (2 * p.a)
      let t := x + (t2 : Int)
      let v := p.a * x ^ 2 + p.b * x + p.c
      if (t1 : Rat) ≤ t ∧ t ≤ (t3 : Rat) ∧ |v - (y2 : Int)| ≤ (Config.peakTol : Int) then some ⟨t, v⟩ else none

/-- FIT under an arithmetic; the rules give the exact one only (00_scope.md R7, 93 I7). -/
def fit (arith : InterpArith) (t1 y1 t2 y2 t3 y3 : Int) : Option Vertex :=
  match arith with
  | .exactRational => fitExact t1 y1 t2 y2 t3 y3

/-- `trunc(q)`: toward zero (00_scope.md R12). -/
def truncRat (q : Rat) : Int := q.num.tdiv q.den

/-- The peak an accepted vertex stores (41_signal_processor.md R163, R164). -/
def Vertex.toPeak (v : Vertex) : Except Fault Peak :=
  (rne v.value).map fun position => ⟨true, wrap64 (truncRat v.time), position⟩

end Sys2Proof.Machine
end

