-- ==== Sys2Proof/Machine/AddReading.lean ====
section
/-! DEFINITION. `AddReading(reading, tareOffsetSteps)` (41_signal_processor.md R151), shared by SP_ADD and by the decoder's
hand-off (40_frame_decoder.md R128). -/

namespace Sys2Proof.Machine

/-- The half-period of a polarity (41_signal_processor.md R159). -/
def Processor.setHalf (p : Processor) (rising : Bool) (half : F64) : Processor :=
  { p with posHalf := if rising then half else p.posHalf, negHalf := if rising then p.negHalf else half }

/-- The last accepted crossing (41_signal_processor.md R157). -/
def Processor.setCrossing (p : Processor) (cur : Reading) (rising : Bool) : Processor :=
  { p with lastZc := ⟨true, cur.total, rising⟩ }

/-- Acceptance of a crossing at `cur`: the half-period of its polarity where a prior crossing exists, then the last crossing
(41_signal_processor.md R157, R159). -/
def Processor.acceptCrossing (p : Processor) (cur : Reading) (rising : Bool) : Except Fault Processor :=
  if p.lastZc.valid then
    (halfPeriod (timeOf cur - asS64 p.lastZc.time)).map fun half => (p.setHalf rising half).setCrossing cur rising
  else .ok (p.setCrossing cur rising)

/-- Detection and debounce between the previous entry and the newest; the answer is the accepted polarity
(41_signal_processor.md R155, R156, R157). -/
def Processor.crossBetween (p : Processor) (prev cur : Reading) : Except Fault (Processor × Option Bool) :=
  match crossingOf prev cur with
  | none => .ok (p, none)
  | some rising =>
    if p.debounced (timeOf cur) then .ok (p, none) else (p.acceptCrossing cur rising).map fun q => (q, some rising)

/-- CROSSING() (41_signal_processor.md R155). -/
def Processor.crossing (p : Processor) : Except Fault (Processor × Option Bool) :=
  if p.nfill < 2 then .ok (p, none)
  else
    match p.histRead 2, p.histRead 1 with
    | .error f, _ => .error f
    | _, .error f => .error f
    | .ok prev, .ok cur => p.crossBetween prev cur

/-- The peak window over the last three entries, oldest first (41_signal_processor.md R160, R163, R164). -/
def Processor.peakWindow (p : Processor) (e1 e2 e3 : Reading) : Except Fault Processor :=
  let b := Config.peakBias
  if positiveWindow (angle e1) (angle e2) (angle e3) then
    match fit Config.interpArith (timeOf e1) (angle e1) (timeOf e2) (angle e2) (timeOf e3) (angle e3 + b) with
    | some v => v.toPeak.map fun peak => { p with posPeak := peak }
    | none => .ok p
  else if negativeWindow (angle e1) (angle e2) (angle e3) then
    match fit Config.interpArith (timeOf e1) (angle e1 + b) (timeOf e2) (angle e2 + b) (timeOf e3) (angle e3) with
    | some v => v.toPeak.map fun peak => { p with negPeak := peak }
    | none => .ok p
  else .ok p

/-- PEAK() (41_signal_processor.md R160). -/
def Processor.peak (p : Processor) : Except Fault Processor :=
  if p.nfill < 3 then .ok p
  else
    match p.histRead 3, p.histRead 2, p.histRead 1 with
    | .error f, _, _ => .error f
    | _, .error f, _ => .error f
    | _, _, .error f => .error f
    | .ok e1, .ok e2, .ok e3 => p.peakWindow e1 e2 e3

/-- The terms of a record: a crossing, both peaks and both half-periods known (41_signal_processor.md R165). -/
def Processor.recordReady (p : Processor) : Bool :=
  p.lastZc.valid && p.posPeak.valid && p.negPeak.valid && f64Positive p.posHalf && f64Positive p.negHalf

/-- The CYCLE event of a reading (41_signal_processor.md R166, 30_encoding.md R94). -/
def Processor.cycleEvent (p : Processor) (r : Reading) : Except Fault Event :=
  match f64Sub p.posPeak.position p.negPeak.position, f64Add p.posHalf p.negHalf with
  | .error f, _ => .error f
  | _, .error f => .error f
  | .ok amplitude, .ok period => .ok (.cycle r.total r.drift amplitude period p.sens)

/-- The events of step 5 for the polarity step 2 accepted, if any (41_signal_processor.md R165). -/
def Processor.cycleEvents (p : Processor) (accepted : Option Bool) (r : Reading) : Except Fault (List Event) :=
  match accepted with
  | none => .ok []
  | some rising =>
    if polarityAllows Config.emitPolarity rising && p.recordReady then (p.cycleEvent r).map fun e => [e] else .ok []

/-- The five steps on the processor group: its next value and the events (41_signal_processor.md R151). -/
def Processor.addReading (p : Processor) (factor : Int) (r : Reading) (tare : Word) :
    Except Fault (Processor × List Event) :=
  match (p.histWrite ⟨r.total, tareAdjusted factor r.count tare, r.drift⟩).crossing with
  | .error f => .error f
  | .ok (p2, accepted) =>
    match p2.peak with
    | .error f => .error f
    | .ok p3 => (p3.cycleEvents accepted r).map fun events => (p3, events)

/-- AddReading on the block (41_signal_processor.md R151). -/
def State.addReading (s : State) (r : Reading) (tare : Word) : Host.Outcome State Fault Refusal :=
  match s.sp.addReading s.tareFactor r tare with
  | .error f => .fault f
  | .ok (p, events) => .next ((s.withSp p).emit events)

end Sys2Proof.Machine
end

