-- ==== Sys2Proof/Machine/Direct.lean ====
section
/-! DEFINITION. The processor's own transactions, SP_ADD and SENSOR (41_signal_processor.md R151, R168). -/

namespace Sys2Proof.Machine

/-- SP_ADD: AddReading with the tare operand, not the tare register (41_signal_processor.md R151, 42_control.md R203). -/
def execSpAdd (total count drift tare : Word) (s : State) : Host.Outcome State Fault Refusal :=
  s.consume.addReading ⟨total, count, drift⟩ tare

/-- SENSOR: store the value, or refuse a kind the block does not have (41_signal_processor.md R168, 30_encoding.md R80, R97). -/
def execSensor (kind : BitVec 16) (value : Word) (s : State) : Host.Outcome State Fault Refusal :=
  .next (if s.sp.hasKind kind then s.consume.withSp (s.sp.sensWrite kind value) else s.refuse)

end Sys2Proof.Machine
end

