-- ==== Sys2Proof/Machine/Serial.lean ====
section
/-! DEFINITION. The transactions of the serial source: CONNECT, FRAME in its four classes, RDERR (40_frame_decoder.md). -/

namespace Sys2Proof.Machine

/-- CONNECT (40_frame_decoder.md R111). -/
def execConnect (s : State) : Host.Outcome State Fault Refusal := .next s.consume.connect

/-- FRAME_SENTINEL (40_frame_decoder.md R113): its arrival time is ignored. -/
def execFrameSentinel (_arrival : Word) (s : State) : Host.Outcome State Fault Refusal :=
  s.serial fun s => .next (s.emit [.status .overflow false])

/-- FRAME_BADCSUM (40_frame_decoder.md R115, R116): the frame is dropped before anything is extracted from it. -/
def execFrameBadcsum (_frame : Frame) (_arrival : Word) (s : State) : Host.Outcome State Fault Refusal :=
  s.serial fun s => .next ((s.withDec s.dec.clearErrors).emit [.diag .csumMismatch])

/-- An accepted data frame: the decoder's writes, its READING, then the hand-off with the tare as it stands in this step
(40_frame_decoder.md R114, R125, R128). -/
def State.acceptFrame (s : State) (dir : Bool) (ts : Stamp) (arrival : Word) : Host.Outcome State Fault Refusal :=
  let d := s.dec.acceptFrame dir ts arrival
  let r := d.reading ts arrival
  ((s.withDec d).emit [.reading r]).addReading r s.tare

/-- FRAME_DATA_POS (40_frame_decoder.md R114). -/
def execFrameDataPos (ts : Stamp) (arrival : Word) (s : State) : Host.Outcome State Fault Refusal :=
  s.serial fun s => s.acceptFrame true ts arrival

/-- FRAME_DATA_NEG (40_frame_decoder.md R114). -/
def execFrameDataNeg (ts : Stamp) (arrival : Word) (s : State) : Host.Outcome State Fault Refusal :=
  s.serial fun s => s.acceptFrame false ts arrival

/-- RDERR (40_frame_decoder.md R126). -/
def execRderr (s : State) : Host.Outcome State Fault Refusal := s.serial fun s => .next s.readError

end Sys2Proof.Machine
end

