-- ==== Sys2Proof/Machine/Dispatch.lean ====
section
/-! DEFINITION. One arm per transaction class, each one call of its meaning. -/

namespace Sys2Proof.Machine

def exec (i : Instr) (s : State) : Host.Outcome State Fault Refusal :=
  match i with
  | .reservedZero => Sys2Proof.Machine.execReservedZero s
  | .connect => Sys2Proof.Machine.execConnect s
  | .frameSentinel arrival => Sys2Proof.Machine.execFrameSentinel arrival s
  | .frameBadcsum frame arrival => Sys2Proof.Machine.execFrameBadcsum frame arrival s
  | .frameDataPos ts arrival => Sys2Proof.Machine.execFrameDataPos ts arrival s
  | .frameDataNeg ts arrival => Sys2Proof.Machine.execFrameDataNeg ts arrival s
  | .rderr => Sys2Proof.Machine.execRderr s
  | .spAdd total count drift tare => Sys2Proof.Machine.execSpAdd total count drift tare s
  | .sensor kind value => Sys2Proof.Machine.execSensor kind value s
  | .tareSet value => Sys2Proof.Machine.execTareSet value s
  | .tareGet => Sys2Proof.Machine.execTareGet s
  | .reservedHigh low => Sys2Proof.Machine.execReservedHigh low s

end Sys2Proof.Machine
end

