-- ==== Sys2Proof/Machine/Step.lean ====
section
/-! DEFINITION. One step of the block: it consumes one presented transaction (00_scope.md R14, 20_memory.md R55). -/

namespace Sys2Proof.Machine

/-- One step. With nothing presented the block is idle and keeps its state (60_exceptions.md R234, log 3). -/
def step (s : State) : Host.Outcome State Fault Refusal :=
  match s.presented with
  | none => .next s
  | some t => exec (decode t) s

/-- The transaction of the low `nbits` bits of `w` presented first. A serial read is consumed only over a link that is up
(40_frame_decoder.md R112), so the link is up for one (log 6). -/
def State.withFetchWord (s : State) (nbits w : Nat) : State :=
  let t := Transaction.ofBits (w % 2 ^ nbits)
  let d := if isSerialRead t then { s.dec with link := .connected } else s.dec
  { s with dec := d, port := t :: s.port }

end Sys2Proof.Machine
end

