-- ==== Sys2Proof/Machine/Events.lean ====
section
/-! DEFINITION. The numbers and logical ports of the output events (30_encoding.md R71, R91). -/

namespace Sys2Proof.Machine

/-- The 2-bit code of a STATUS event (30_encoding.md R91, 60_exceptions.md R223). -/
def StatusCode.number : StatusCode → BitVec 2
  | .connected => 0
  | .disconnected => 1
  | .overflow => 2
  | .error => 3

/-- The number of a DIAG reason (30_encoding.md R91). -/
def DiagReason.number : DiagReason → Nat
  | .csumMismatch => 0

/-- The logical ports `evt`, `rec`, `ctl` and `diag` (30_encoding.md R71). -/
inductive EventPort where
  | evt
  | record
  | ctl
  | diag
deriving DecidableEq, Repr

/-- The logical port an event's type selects (30_encoding.md R91). -/
def Event.port : Event → EventPort
  | .status _ _ => .evt
  | .reading _ => .evt
  | .cycle _ _ _ _ _ => .record
  | .tareValue _ => .ctl
  | .diag _ => .diag

end Sys2Proof.Machine
end

