-- ==== Sys2Proof/Machine/Launch.lean ====
section
/-! DEFINITION. Launching the block with given values of its OPEN parameters: values that break a constraint of 00_scope.md R8 are
refused, by the name of the constraint. -/

namespace Sys2Proof.Machine

/-- The block right after launch, or the constraint of 00_scope.md R8 its parameters break: no state exists for those. -/
def State.launch (factor : Int) (kinds : Nat) : Except ParameterError State :=
  match h : (Config.parameters factor kinds).violation with
  | some e => .error e
  | none => .ok (State.resetWith factor kinds (by simp [Config.legal, h]))

end Sys2Proof.Machine
end

