-- ==== Sys2Proof/Safety.lean ====
section
/-! DEFINITION. What the claims are about: runs without a refused transaction (30_encoding.md R97, 70_reset_and_hazards.md R256),
the invariants of 10_state.md, the bank's condition, and what an outcome is allowed to be (60_exceptions.md R235). -/

namespace Sys2Proof

/-- FRAME in any class, or RDERR: the transactions that can be held (40_frame_decoder.md R112). -/
def Instr.serialRead : Instr → Bool
  | .reservedZero => false
  | .connect => false
  | .frameSentinel _ => true
  | .frameBadcsum _ _ => true
  | .frameDataPos _ _ => true
  | .frameDataNeg _ _ => true
  | .rderr => true
  | .spAdd _ _ _ _ => false
  | .sensor _ _ => false
  | .tareSet _ => false
  | .tareGet => false
  | .reservedHigh _ => false

/-- A transaction that performs AddReading: SP_ADD or an accepted data frame (41_signal_processor.md R151). -/
def Instr.addsReading : Instr → Bool
  | .reservedZero => false
  | .connect => false
  | .frameSentinel _ => false
  | .frameBadcsum _ _ => false
  | .frameDataPos _ _ => true
  | .frameDataNeg _ _ => true
  | .rderr => false
  | .spAdd _ _ _ _ => true
  | .sensor _ _ => false
  | .tareSet _ => false
  | .tareGet => false
  | .reservedHigh _ => false

end Sys2Proof

namespace Sys2Proof.Machine

/-- A claim takes `S.refused = 0` at its end as a premise (30_encoding.md R97, 70_reset_and_hazards.md R256). -/
def State.claimable (s : State) : Bool := !s.refused

/-- The error count is in its range, and below the limit while the link is up (10_state.md R31, 40_frame_decoder.md R126, R127);
before the first accepted data frame every other integer of the decoder is at its reset value (10_state.md R24 to R32). -/
abbrev Decoder.inv (d : Decoder) : Prop :=
  d.errCount ≤ Config.errLimit ∧ (d.link = .connected → d.errCount < Config.errLimit) ∧
    (d.synced = false → d.lastTs = 0 ∧ d.ovfCount = 0 ∧ d.position = 0 ∧ d.epochOffset = 0 ∧ d.firstDev = 0 ∧
      d.lastArrival = 0)

/-- The ring's canonical form: the fill count is in its range, and until the ring is full the cursor is the fill count, so that
the written entries are those below it (10_state.md R34, R35, R47). -/
abbrev Processor.ringInv (p : Processor) : Prop :=
  p.nfill ≤ Config.histN ∧ (p.nfill < Config.histN → p.wr.val = p.nfill)

/-- The sensor bank has between 1 and 2^16 entries (00_scope.md R8, 10_state.md R41). -/
abbrev Processor.bankInv (p : Processor) : Prop := 1 ≤ p.sens.length ∧ p.sens.length ≤ 2 ^ 16

/-- A finite value of magnitude at most 2^66. The positions and half-periods the rules store are: 93_implementation_defined.md I15
bounds the exact ones by 2^64 + 6 and 2^64 / 10^6. -/
abbrev f64Bounded (x : F64) : Prop := f64Finite x = true ∧ |f64Value x| ≤ 2 ^ 66

/-- No stored binary64 value is large enough to bring `rne` outside the finite range (93_implementation_defined.md I15). -/
abbrev Processor.floatBounds (p : Processor) : Prop :=
  f64Bounded p.posHalf ∧ f64Bounded p.negHalf ∧ f64Bounded p.posPeak.position ∧ f64Bounded p.negPeak.position

/-- The stored values are bounded, a half-period is +0.0 (not observed) or positive, and none is known before a crossing was
accepted (10_state.md R39, R40, 41_signal_processor.md R157, R159). -/
abbrev Processor.floatInv (p : Processor) : Prop :=
  p.floatBounds ∧ (p.posHalf = 0 ∨ f64Positive p.posHalf = true) ∧ (p.negHalf = 0 ∨ f64Positive p.negHalf = true) ∧
    (p.lastZc.valid = false → p.posHalf = 0 ∧ p.negHalf = 0)

/-- `s` and `s'` differ at most in what 10_state.md R50 calls hidden: history entries older than the newest two (the newest three
once the next reading is written), the write cursor, and the peaks' times. -/
abbrev State.sameObservable (s s' : State) : Prop :=
  s'.dec = s.dec ∧ s'.tare = s.tare ∧ s'.refused = s.refused ∧ s'.tareFactor = s.tareFactor ∧ s'.port = s.port ∧
    s'.out = s.out ∧ s'.sp.nfill = s.sp.nfill ∧ s'.sp.histRead 1 = s.sp.histRead 1 ∧
    s'.sp.histRead 2 = s.sp.histRead 2 ∧ s'.sp.posPeak.valid = s.sp.posPeak.valid ∧
    s'.sp.posPeak.position = s.sp.posPeak.position ∧ s'.sp.negPeak.valid = s.sp.negPeak.valid ∧
    s'.sp.negPeak.position = s.sp.negPeak.position ∧ s'.sp.lastZc = s.sp.lastZc ∧ s'.sp.posHalf = s.sp.posHalf ∧
    s'.sp.negHalf = s.sp.negHalf ∧ s'.sp.sens = s.sp.sens

/-- The entries written since reset that the ring still holds, newest first (10_state.md R35). -/
def Processor.recent (p : Processor) : List Reading :=
  (List.range p.nfill).filterMap fun k => (p.histRead (k + 1)).toOption

/-- The accepted data frame of a direction, a timestamp and an arrival time (40_frame_decoder.md R114). -/
def dataFrame (dir : Bool) (ts : Stamp) (arrival : Word) : Instr :=
  if dir then .frameDataPos ts arrival else .frameDataNeg ts arrival

/-- The step ended normally: the machine neither stopped nor lacked a meaning (60_exceptions.md R235). -/
abbrev completes (o : Host.Outcome State Fault Refusal) : Prop := ∃ t, o = .next t

end Sys2Proof.Machine
end

