-- ==== Sys2Proof/Certificates/Slice0/Obligations.lean ====
section
/-! DEFINITION. The statements about the block, each with the rules of spec/ it formalises. They are stated here and proved
elsewhere. A transaction that adds a Reading forms a CYCLE from stored binary64 values, and `rne` outside the finite range is a fault
(93_implementation_defined.md I15): that such a transaction completes is stated under `Processor.floatBounds`, which holds at launch
(`ResetMeetsInvariants`) and which every step keeps (`StoredFloatsFinite`). -/

open Sys2Proof Sys2Proof.Machine

/-! ## Encoding -/

/-- Decoding an encoded well-formed instruction gives it back, every operand at every value (30_encoding.md R72, R75, R77 to R88,
R99). -/
def Obligations.DecodeEncodeRoundTrip : Prop :=
  ∀ i : Instr, i.wellFormed = true → decode (encode i) = i

/-- The decoder is `classify` of 30_encoding.md R103, on every transaction and for every number of sensor kinds. -/
def Obligations.DecodeFollowsClassify : Prop :=
  ∀ (kinds : Nat) (t : Transaction), (decode t).classOf kinds =
    if t.op = 0x1 then .connect
    else if t.op = 0x2 then
      if t.a.extractLsb' 0 40 = 0xFFFFFFFFFF#40 then .frameSentinel
      else if t.a.extractLsb' 0 7 ≠
          (t.a.extractLsb' 32 8 ^^^ t.a.extractLsb' 24 8 ^^^ t.a.extractLsb' 16 8 ^^^ t.a.extractLsb' 8 8).extractLsb' 0 7
        then .frameBadcsum
      else if t.a.getLsbD 7 then .frameDataPos
      else .frameDataNeg
    else if t.op = 0x3 then .rderr
    else if t.op = 0x4 then .spAdd
    else if t.op = 0x5 then if (t.a.extractLsb' 0 16).toNat < kinds then .sensor else .refused
    else if t.op = 0x6 then .tareSet
    else if t.op = 0x7 then .tareGet
    else .refused

/-- Whatever is decoded is well-formed, so the encoder has a transaction for it (30_encoding.md R85, R103). -/
def Obligations.DecodedIsWellFormed : Prop := ∀ t : Transaction, (decode t).wellFormed = true

/-- The checksum test is that of 30_encoding.md R84, and it does not see bit 7 of any byte. -/
def Obligations.ChecksumDefinition : Prop :=
  ∀ f : Frame,
    (frameChecksumValid f = true ↔
      ((f.extractLsb' 32 8 ^^^ f.extractLsb' 24 8 ^^^ f.extractLsb' 16 8 ^^^ f.extractLsb' 8 8) &&& 0x7F#8) =
        (f.extractLsb' 0 8 &&& 0x7F#8)) ∧
    ∀ k < 5, frameChecksumValid (f ^^^ (1#40 <<< (8 * k + 7))) = frameChecksumValid f

/-- No frame with a valid checksum is the sentinel, whose own checksum is 0x7F where 0x00 is expected, and every timestamp and
direction has exactly one valid frame (30_encoding.md R98). -/
def Obligations.ValidFrameUnique : Prop :=
  (frameExpected (BitVec.allOnes 40) = 0x00#7 ∧ frameCsum (BitVec.allOnes 40) = 0x7F#7) ∧
  (∀ f : Frame, frameChecksumValid f = true → f ≠ BitVec.allOnes 40) ∧
  ∀ (ts : Stamp) (dir : Bool), ∃! f : Frame, frameChecksumValid f = true ∧ frameTs f = ts ∧ frameDir f = dir

/-- The data frame of a timestamp and a direction has the bytes of 30_encoding.md R99, and it decodes to them whatever stands in
the ignored fields. -/
def Obligations.DataFrameRoundTrip : Prop :=
  (∀ (ts : Stamp) (dir : Bool),
    frameByte (frameOfData ts dir) 0 = ts.extractLsb' 24 8 ∧ frameByte (frameOfData ts dir) 1 = ts.extractLsb' 16 8 ∧
    frameByte (frameOfData ts dir) 2 = ts.extractLsb' 8 8 ∧ frameByte (frameOfData ts dir) 3 = ts.extractLsb' 0 8 ∧
    frameByte (frameOfData ts dir) 4 = BitVec.ofBool dir ++
      (ts.extractLsb' 24 8 ^^^ ts.extractLsb' 16 8 ^^^ ts.extractLsb' 8 8 ^^^ ts.extractLsb' 0 8).extractLsb' 0 7) ∧
  (∀ (ts : Stamp) (dir : Bool) (high : BitVec 24) (arrival c d : Word),
    decode ⟨0x2, high ++ frameOfData ts dir, arrival, c, d⟩ = dataFrame dir ts arrival) ∧
  frameOfData 0x12345678 true = frameOfBytes 0x12 0x34 0x56 0x78 0x88

/-- A single flipped bit of bytes 0 to 3 of a valid frame: in bits 6..0 of its byte the frame is then FRAME_BADCSUM; in bit 7 it is
still a data frame of the same direction, its timestamp off by that bit (40_frame_decoder.md R132). -/
def Obligations.SingleBitCorruption : Prop :=
  ∀ (f : Frame) (i : Nat) (high : BitVec 24) (arrival c d : Word), frameChecksumValid f = true → 8 ≤ i → i < 40 →
    (i % 8 ≠ 7 → decode ⟨0x2, high ++ (f ^^^ (1#40 <<< i)), arrival, c, d⟩ = .frameBadcsum (f ^^^ (1#40 <<< i)) arrival) ∧
    (i % 8 = 7 → decode ⟨0x2, high ++ (f ^^^ (1#40 <<< i)), arrival, c, d⟩ =
      dataFrame (frameDir f) (frameTs f ^^^ (1#32 <<< (i - 8))) arrival)

/-- The fields a transaction rule does not read do not matter (30_encoding.md R72, R77, R78, R80, R81, R86, R87). -/
def Obligations.IgnoredFieldsIgnored : Prop :=
  ∀ t u : Transaction, t.op = u.op →
    (t.op = 0x2 → t.a.extractLsb' 0 40 = u.a.extractLsb' 0 40 → t.b = u.b → decode t = decode u) ∧
    (t.op = 0x5 → t.a.extractLsb' 0 16 = u.a.extractLsb' 0 16 → t.b = u.b → decode t = decode u) ∧
    (t.op = 0x6 → t.a = u.a → decode t = decode u) ∧
    (t.op ≠ 0x2 → t.op ≠ 0x4 → t.op ≠ 0x5 → t.op ≠ 0x6 → decode t = decode u)

/-- Transactions written out from the spec's encodings decode to what they stand for (30_encoding.md R83, R99, R101; the words are
those of 95_test_vectors.md V-DEC-1 to V-DEC-3). -/
def Obligations.HandEncodedWordsDecode : Prop :=
  decode ⟨0x1, 0, 0, 0, 0⟩ = .connect ∧
  decode ⟨0x2, 0x0000001234567888, 0x00060A24181E4000, 0, 0⟩ = .frameDataPos 0x12345678 1700000000000000 ∧
  decode ⟨0x2, 0x0000000000000101, 5, 0, 0⟩ = .frameDataNeg 1 5 ∧
  decode ⟨0x2, 0x000000FFFFFFFFFF, 7, 0, 0⟩ = .frameSentinel 7 ∧
  decode ⟨0x2, 0x000000000007D000, 9, 0, 0⟩ = .frameBadcsum 0x000007D000 9 ∧
  decode ⟨0x4, 0x0000000000102CA0, 0xFFFFFFFFFFFFFFFF, 5, 0⟩ = .spAdd 1060000 (-1) 5 0 ∧
  decode ⟨0x5, 1, 0x00000000000003F5, 0, 0⟩ = .sensor 1 1013 ∧
  decode ⟨0x6, 0xFFFFFFFFFFFFFFFD, 0, 0, 0⟩ = .tareSet (-3) ∧
  decode ⟨0xD, 0, 0, 0, 0⟩ = .reservedHigh 5

/-! ## The port and the step -/

/-- A step runs exactly the decoded transaction: the first presented one that is not held, or, where every presented one is held,
the first; with nothing presented the state stays (30_encoding.md R73, R76; logs 1 and 3). -/
def Obligations.StepRunsDecodedTransaction : Prop :=
  (∀ (s : State) (pre : List Transaction) (t : Transaction) (post : List Transaction),
    s.port = pre ++ t :: post → (∀ u ∈ pre, s.holds u = true) → s.holds t = false →
      s.presented = some t ∧ step s = exec (decode t) s) ∧
  (∀ (s : State) (t : Transaction) (rest : List Transaction),
    s.port = t :: rest → (∀ u ∈ s.port, s.holds u = true) → s.presented = some t ∧ step s = exec (decode t) s) ∧
  (∀ s : State, s.port = [] → step s = .next s)

/-- The step consumes the first presented transaction that is not held, and only it: the others stay, in their order
(20_memory.md R55, R56, 30_encoding.md R73, R76, 70_reset_and_hazards.md R259, R266; the port as a list is log 1). It completes
wherever the stored binary64 values are bounded. -/
def Obligations.StepConsumesFirstAcceptable : Prop :=
  ∀ (s : State) (pre : List Transaction) (t : Transaction) (post : List Transaction),
    s.port = pre ++ t :: post → (∀ u ∈ pre, s.holds u = true) → s.holds t = false →
      (s.sp.floatBounds → ∃ s', step s = .next s') ∧ ∀ s', step s = .next s' → s'.port = pre ++ post

/-- While the link is DISCONNECTED a FRAME or RDERR changes nothing and stays presented; only a CONNECT lifts the hold; every
other transaction is consumed in either link state (40_frame_decoder.md R112, 30_encoding.md R76). -/
def Obligations.HeldReadsWait : Prop :=
  (∀ (i : Instr) (s : State), i.serialRead = true → s.dec.link = .disconnected → exec i s = .next s) ∧
  (∀ s : State, (∀ t ∈ s.port, s.holds t = true) → step s = .next s) ∧
  (∀ s s' : State, s.dec.link = .disconnected → step s = .next s' → s'.dec.link = .connected →
    ∃ t, s.presented = some t ∧ decode t = .connect) ∧
  (∀ (s : State) (t : Transaction), s.holds t = true ↔ (s.dec.link = .disconnected ∧ (decode t).serialRead = true)) ∧
  (∀ (s : State) (t : Transaction), (decode t).serialRead = false → s.presented = some t →
    (s.sp.floatBounds → ∃ s', step s = .next s') ∧ ∀ s', step s = .next s' → s'.port.length + 1 = s.port.length)

/-! ## The frame decoder -/

/-- CONNECT is `op = 0x1` and completes in every state with the state of 40_frame_decoder.md R111: every decoder field at its
reset value but the link, the processor, the tare and the mark untouched, the events in their order. The other value of
`P_RECONNECT_KEEPS_DEC_STATE` resets the error count only (70_reset_and_hazards.md R253). -/
def Obligations.ConnectResult : Prop :=
  (∀ a b c d, decode ⟨0x1, a, b, c, d⟩ = .connect) ∧
  (∀ s : State, exec .connect s = .next
    { s with
      dec := { lastTs := 0, ovfCount := 0, position := 0, epochOffset := 0, firstDev := 0, lastArrival := 0,
               link := .connected, errCount := 0, synced := false }
      port := s.consume.port
      out := s.out ++ (if s.dec.link = .connected then [.status .disconnected false, .status .connected false]
        else [.status .connected false]) }) ∧
  ∀ d : Decoder, d.connectReset true = { d with errCount := 0, link := .connected } ∧
    d.connectReset false = { Decoder.reset with link := .connected }

/-- FRAME_SENTINEL is the all-ones frame; over a link that is up it emits OVERFLOW and changes no state, the error counter
included, whatever its arrival (40_frame_decoder.md R113). -/
def Obligations.SentinelResult : Prop :=
  (∀ (high : BitVec 24) (arrival c d : Word),
    decode ⟨0x2, high ++ 0xFFFFFFFFFF#40, arrival, c, d⟩ = .frameSentinel arrival) ∧
  ∀ (arrival : Word) (s : State), s.dec.link = .connected →
    exec (.frameSentinel arrival) s =
      .next { s with port := s.port.tail, out := s.out ++ [.status .overflow false] }

/-- FRAME_BADCSUM is a frame that is not the sentinel and whose checksum fails; over a link that is up it resets the error
counter, emits the DIAG and changes nothing else, whatever its arrival (40_frame_decoder.md R116). -/
def Obligations.BadChecksumResult : Prop :=
  (∀ (high : BitVec 24) (frame : Frame) (arrival c d : Word), frame ≠ 0xFFFFFFFFFF#40 →
    (frameByte frame 0 ^^^ frameByte frame 1 ^^^ frameByte frame 2 ^^^ frameByte frame 3) &&& 0x7F#8 ≠
        frameByte frame 4 &&& 0x7F#8 →
      decode ⟨0x2, high ++ frame, arrival, c, d⟩ = .frameBadcsum frame arrival) ∧
  ∀ (frame : Frame) (arrival : Word) (s : State), s.dec.link = .connected →
    exec (.frameBadcsum frame arrival) s = .next
      { s with
        dec := { s.dec with errCount := 0 }
        port := s.port.tail
        out := s.out ++ [.diag .csumMismatch] }

/-- Every FRAME that is not the sentinel resets the error counter (40_frame_decoder.md R115). -/
def Obligations.NonSentinelFrameClearsErrors : Prop :=
  ∀ (i : Instr) (s t : State), i.serialRead = true → i ≠ .rderr → (∀ a, i ≠ .frameSentinel a) →
    s.dec.link = .connected → exec i s = .next t → t.dec.errCount = 0

/-- An accepted data frame completes wherever the link is up and the stored binary64 values are bounded, and the whole decoder after
it, in 32- and 64-bit arithmetic: the wrap count, the timestamp, the anchor on a first frame or after a gap, the arrival and the
position (40_frame_decoder.md R118, R119, R120, R123, R124). Nothing outside the decoder, the processor's history, crossings, peaks
and half-periods, the port and the output changes. -/
def Obligations.DataFrameDecoderState : Prop :=
  ∀ (dir : Bool) (ts : Stamp) (arrival : Word) (s : State), s.dec.link = .connected → s.sp.floatBounds →
    let ovf := if ts < s.dec.lastTs then s.dec.ovfCount + 1 else s.dec.ovfCount
    let resync := s.dec.synced = true ∧ 60000000 < (arrival - s.dec.lastArrival).toInt
    let ovf' := if resync then 0 else ovf
    ∃ t, exec (dataFrame dir ts arrival) s = .next t ∧
      t.dec = { lastTs := ts
                ovfCount := ovf'
                position := if dir then s.dec.position + 1 else s.dec.position - 1
                epochOffset := if s.dec.synced = false ∨ resync then arrival else s.dec.epochOffset
                firstDev := if s.dec.synced = false ∨ resync then ovf' ++ ts else s.dec.firstDev
                lastArrival := arrival
                link := .connected
                errCount := 0
                synced := true } ∧
      t.sp.sens = s.sp.sens ∧ t.tare = s.tare ∧ t.refused = s.refused ∧ t.tareFactor = s.tareFactor ∧
      t.port = s.port.tail

/-- The READING of an accepted data frame comes first: TotalMicros is the epoch plus the elapsed device time, Count the position
after the move, drift the arrival less TotalMicros, each wrapping in 64 bits; at most one CYCLE follows
(40_frame_decoder.md R122, 30_encoding.md R93). -/
def Obligations.DataFrameReading : Prop :=
  ∀ (dir : Bool) (ts : Stamp) (arrival : Word) (s : State), s.dec.link = .connected → s.sp.floatBounds →
    ∃ t evs, exec (dataFrame dir ts arrival) s = .next t ∧
      let total := t.dec.epochOffset + ((t.dec.ovfCount ++ ts : BitVec 64) - t.dec.firstDev)
      t.out = s.out ++ .reading ⟨total, t.dec.position, arrival - total⟩ :: evs ∧
        (evs = [] ∨ ∃ a p, evs = [.cycle total (arrival - total) a p s.sp.sens])

/-- The first accepted frame anchors the clock on itself, whatever the gap: TotalMicros is its arrival, the drift 0
(40_frame_decoder.md R120). -/
def Obligations.FirstFrameAnchors : Prop :=
  ∀ (dir : Bool) (ts : Stamp) (arrival : Word) (s : State), s.dec.link = .connected → s.sp.floatBounds →
    s.dec.synced = false →
    ∃ t evs, exec (dataFrame dir ts arrival) s = .next t ∧ t.dec.synced = true ∧ t.dec.epochOffset = arrival ∧
      t.dec.firstDev.toNat = ts.toNat + t.dec.ovfCount.toNat * 2 ^ 32 ∧
      t.out = s.out ++ .reading ⟨arrival, t.dec.position, 0⟩ :: evs

/-- The gap test of a later frame, both ways: above 60 s (strictly, and as a signed 64-bit difference) the frame becomes the new
anchor with the wrap count at 0, TotalMicros its arrival and drift 0; otherwise the anchor stays (40_frame_decoder.md R121). -/
def Obligations.ResynchronisationRule : Prop :=
  ∀ (dir : Bool) (ts : Stamp) (arrival : Word) (s : State), s.dec.link = .connected → s.sp.floatBounds →
    s.dec.synced = true →
    ∃ t evs r, exec (dataFrame dir ts arrival) s = .next t ∧ t.out = s.out ++ .reading r :: evs ∧
      if 60000000 < (BitVec.ofInt 64 (arrival.toInt - s.dec.lastArrival.toInt)).toInt then
        t.dec.ovfCount = 0 ∧ t.dec.epochOffset = arrival ∧ t.dec.firstDev.toNat = ts.toNat ∧
          r.total = arrival ∧ r.drift = 0
      else
        t.dec.epochOffset = s.dec.epochOffset ∧ t.dec.firstDev = s.dec.firstDev ∧
          t.dec.ovfCount = if ts.toNat < s.dec.lastTs.toNat then s.dec.ovfCount + 1 else s.dec.ovfCount

/-- Two accepted data frames more than 60 s apart, with no accepted data frame and no CONNECT between them: after the later one the
wrap count is 0 and the anchor is that frame, whatever the state before the first (40_frame_decoder.md R131). `u` stands for any
state between them: the first frame's arrival is its last arrival and it is synchronised. -/
def Obligations.GapForgetsWraps : Prop :=
  ∀ (dir dir' : Bool) (ts ts' : Stamp) (arrival arrival' : Word) (s t u : State), s.dec.link = .connected →
    exec (dataFrame dir ts arrival) s = .next t → u.dec.lastArrival = t.dec.lastArrival → u.dec.synced = t.dec.synced →
    u.dec.link = .connected → u.sp.floatBounds → 60000000 < (arrival' - arrival).toInt →
      ∃ v, exec (dataFrame dir' ts' arrival') u = .next v ∧ v.dec.ovfCount = 0 ∧ v.dec.epochOffset = arrival' ∧
        v.dec.firstDev = ts'.setWidth 64

/-- The device clock never runs backwards: with the anchor at or below the last frame's cumulative time and the wrap count not at
its last value, the next accepted frame keeps the anchor at or below its own cumulative time, and unless it resynchronises its
cumulative time is not below the last frame's, a decreasing timestamp adding one wrap and strictly more time
(10_state.md R46, 40_frame_decoder.md R118, R120, R121, R130). -/
def Obligations.CumulativeTimeMonotone : Prop :=
  ∀ (dir : Bool) (ts : Stamp) (arrival : Word) (s : State), s.dec.link = .connected → s.sp.floatBounds →
    s.dec.synced = true →
    s.dec.firstDev.toNat ≤ s.dec.ovfCount.toNat * 2 ^ 32 + s.dec.lastTs.toNat → s.dec.ovfCount.toNat + 1 < 2 ^ 32 →
    ∃ t, exec (dataFrame dir ts arrival) s = .next t ∧
      t.dec.firstDev.toNat ≤ t.dec.ovfCount.toNat * 2 ^ 32 + t.dec.lastTs.toNat ∧
      (¬ 60000000 < (arrival - s.dec.lastArrival).toInt →
        s.dec.ovfCount.toNat * 2 ^ 32 + s.dec.lastTs.toNat ≤ t.dec.ovfCount.toNat * 2 ^ 32 + t.dec.lastTs.toNat ∧
        (ts.toNat < s.dec.lastTs.toNat → t.dec.ovfCount.toNat = s.dec.ovfCount.toNat + 1 ∧
          s.dec.ovfCount.toNat * 2 ^ 32 + s.dec.lastTs.toNat < t.dec.ovfCount.toNat * 2 ^ 32 + t.dec.lastTs.toNat) ∧
        (s.dec.lastTs.toNat ≤ ts.toNat → t.dec.ovfCount = s.dec.ovfCount))

/-- RDERR is `op = 0x3`; over a link that is up it counts the error; below the limit it emits ERROR(0) and nothing else changes;
at the limit it is the breaker: the terminal ERROR, the link down, DISCONNECTED, every serial read then held, and the decoder as
it is until a CONNECT (40_frame_decoder.md R126, R127). -/
def Obligations.ReadErrorAndBreaker : Prop :=
  (∀ a b c d, decode ⟨0x3, a, b, c, d⟩ = .rderr) ∧
  (∀ s : State, s.dec.link = .connected → s.dec.errCount + 1 < 10 →
    exec .rderr s = .next
      { s with
        dec := { s.dec with errCount := s.dec.errCount + 1 }
        port := s.port.tail
        out := s.out ++ [.status .error false] }) ∧
  (∀ s : State, s.dec.link = .connected → 10 ≤ s.dec.errCount + 1 →
    ∃ t, exec .rderr s = .next t ∧
      t = { s with
            dec := { s.dec with errCount := s.dec.errCount + 1, link := .disconnected }
            port := s.port.tail
            out := s.out ++ [.status .error true, .status .disconnected false] } ∧
      (∀ i : Instr, i.serialRead = true → exec i t = .next t) ∧
      ∀ (i : Instr) (u : State), i ≠ .connect → exec i t = .next u → u.dec = t.dec)

/-- The hand-off performs AddReading on the Reading the frame emitted, with the tare register as it stands, in the same step and
after the READING: the processor and the further events are those of an SP_ADD of that Reading (40_frame_decoder.md R128). -/
def Obligations.HandOffIsAddReading : Prop :=
  ∀ (dir : Bool) (ts : Stamp) (arrival : Word) (s : State), s.dec.link = .connected → s.sp.floatBounds →
    ∃ t u r evs, exec (dataFrame dir ts arrival) s = .next t ∧
      exec (.spAdd r.total r.count r.drift s.tare) s = .next u ∧ t.sp = u.sp ∧
      t.out = s.out ++ .reading r :: evs ∧ u.out = s.out ++ evs

/-! ## The signal processor -/

/-- `HistRead(k)` answers the k-th most recent entry for `1 ≤ k ≤ nfill`, the entry the latest HistWrite wrote for `k = 1`, and
faults above the fill count (20_memory.md R52). -/
def Obligations.HistReadRule : Prop :=
  ∀ (p : Processor) (k : Nat),
    (1 ≤ k → k ≤ p.nfill → ∃ h, p.histRead k = .ok (p.hist[(p.wr.val + 1000 - k) % 1000]'h)) ∧
    (∀ e, (p.histWrite e).histRead 1 = .ok e) ∧
    (p.nfill < k → p.histRead k = .error (.histUnfilled k))

/-- SP_ADD is `op = 0x4`; it completes wherever the stored binary64 values are bounded and appends the tared Reading: the product
with the conversion factor is exact and the difference wraps; the newest entry is that Reading, every older one moves up by one, the
cursor advances modulo 1000, the fill count saturates; nothing outside the processor, the port and the output changes
(41_signal_processor.md R152, R153, 20_memory.md R53). -/
def Obligations.SpAddAppendsTaredReading : Prop :=
  (∀ a b c d, decode ⟨0x4, a, b, c, d⟩ = .spAdd a b c d) ∧
  ∀ (total count drift tare : Word) (s : State), s.sp.floatBounds →
    ∃ t, exec (.spAdd total count drift tare) s = .next t ∧
      t.sp.histRead 1 = .ok ⟨total, BitVec.ofInt 64 (count.toInt - tare.toInt * s.tareFactor), drift⟩ ∧
      (∀ k, 1 ≤ k → k < 1000 → k ≤ s.sp.nfill → t.sp.histRead (k + 1) = s.sp.histRead k) ∧
      t.sp.hist = s.sp.hist.set s.sp.wr ⟨total, BitVec.ofInt 64 (count.toInt - tare.toInt * s.tareFactor), drift⟩ ∧
      t.sp.wr.val = (s.sp.wr.val + 1) % 1000 ∧ t.sp.nfill = min 1000 (s.sp.nfill + 1) ∧ t.sp.sens = s.sp.sens ∧
      t.dec = s.dec ∧ t.tare = s.tare ∧ t.refused = s.refused ∧ t.tareFactor = s.tareFactor ∧ t.port = s.consume.port

/-- The ring refines the list of the last 1000 tared readings, newest first: it is empty at launch, and a step puts the reading it
adds in front and drops what no longer fits; a step that adds no reading leaves the list (10_state.md R35, 20_memory.md R53,
41_signal_processor.md R152, R153). The reading of an accepted frame is the one its READING event carries, tared with the register
(40_frame_decoder.md R128). The fill count's bound is part of the ring's invariant (`RingInvariantKept`). -/
def Obligations.RingHoldsLastReadings : Prop :=
  (∀ s : State, (s = State.reset ∨ ∃ factor kinds, State.launch factor kinds = .ok s) → s.sp.recent = []) ∧
  ∀ s s' : State, s.sp.nfill ≤ 1000 → step s = .next s' →
    match s.presented.map decode with
    | some (.spAdd total count drift tare) =>
      s'.sp.recent =
        (⟨total, BitVec.ofInt 64 (count.toInt - tare.toInt * s.tareFactor), drift⟩ :: s.sp.recent).take 1000
    | some (.frameDataPos _ _) | some (.frameDataNeg _ _) =>
      if s.dec.link = .connected then
        ∃ r evs, s'.out = s.out ++ .reading r :: evs ∧
          s'.sp.recent =
            (⟨r.total, BitVec.ofInt 64 (r.count.toInt - s.tare.toInt * s.tareFactor), r.drift⟩ :: s.sp.recent).take 1000
      else s'.sp.recent = s.sp.recent
    | _ => s'.sp.recent = s.sp.recent

/-- Crossing detection, debounce and acceptance with one entry before the new one (41_signal_processor.md R155, R156, R157). The
crossing is accepted if the sign of the tared count changes from not positive to positive or from not negative to negative, and
no accepted crossing lies less than 100 000 µs back; then the half-period of its polarity is set if there was a crossing before,
and the last crossing is replaced. Otherwise, and with no entry before the new one, none of the three changes. -/
def Obligations.CrossingRule : Prop :=
  (∀ (total count drift tare : Word) (s : State), s.sp.nfill = 0 →
    ∃ t, exec (.spAdd total count drift tare) s = .next t ∧ t.sp.lastZc = s.sp.lastZc ∧ t.sp.posHalf = s.sp.posHalf ∧
      t.sp.negHalf = s.sp.negHalf) ∧
  ∀ (total count drift tare : Word) (s : State) (prev : Reading), s.sp.floatBounds → 1 ≤ s.sp.nfill →
    s.sp.histRead 1 = .ok prev →
    let c := (BitVec.ofInt 64 (count.toInt - tare.toInt * s.tareFactor)).toInt
    let rising := prev.count.toInt ≤ 0 ∧ 0 < c
    let falling := 0 ≤ prev.count.toInt ∧ c < 0
    let elapsed := total.toInt - s.sp.lastZc.time.toInt
    let ignored := s.sp.lastZc.valid = true ∧ elapsed < 100000
    ∃ t half, exec (.spAdd total count drift tare) s = .next t ∧ halfPeriod elapsed = .ok half ∧
      t.sp.lastZc = (if rising ∧ ¬ignored then ⟨true, total, true⟩
        else if falling ∧ ¬ignored then ⟨true, total, false⟩ else s.sp.lastZc) ∧
      t.sp.posHalf = (if rising ∧ ¬ignored ∧ s.sp.lastZc.valid = true then half else s.sp.posHalf) ∧
      t.sp.negHalf = (if falling ∧ ¬ignored ∧ s.sp.lastZc.valid = true then half else s.sp.negHalf)

/-- The peak window with two entries before the new one: which extremum is fitted, with which biased inputs, and what an accepted
vertex stores; a discarded fit changes no peak; with fewer entries no peak changes (41_signal_processor.md R160, R163, R164). -/
def Obligations.PeakRule : Prop :=
  (∀ (total count drift tare : Word) (s : State), s.sp.floatBounds → s.sp.nfill < 2 →
    ∃ t, exec (.spAdd total count drift tare) s = .next t ∧ t.sp.posPeak = s.sp.posPeak ∧ t.sp.negPeak = s.sp.negPeak) ∧
  ∀ (total count drift tare : Word) (s : State) (e1 e2 : Reading), s.sp.floatBounds → 2 ≤ s.sp.nfill →
    s.sp.histRead 2 = .ok e1 → s.sp.histRead 1 = .ok e2 →
    let p1 := e1.count.toInt * 2
    let p2 := e2.count.toInt * 2
    let p3 := (BitVec.ofInt 64 (count.toInt - tare.toInt * s.tareFactor)).toInt * 2
    let maximum := if p2 > p1 ∧ p2 > p3 ∧ p2 > 0 then
      fit .exactRational e1.total.toInt p1 e2.total.toInt p2 total.toInt (p3 + 2) else none
    let minimum := if p2 < p1 ∧ p2 < p3 ∧ p2 < 0 then
      fit .exactRational e1.total.toInt (p1 + 2) e2.total.toInt (p2 + 2) total.toInt p3 else none
    ∃ t, exec (.spAdd total count drift tare) s = .next t ∧
      (match maximum with
        | none => t.sp.posPeak = s.sp.posPeak
        | some v => ∃ position, rne v.value = .ok position ∧
            t.sp.posPeak = ⟨true, BitVec.ofInt 64 (v.time.num.tdiv v.time.den), position⟩) ∧
      (match minimum with
        | none => t.sp.negPeak = s.sp.negPeak
        | some v => ∃ position, rne v.value = .ok position ∧
            t.sp.negPeak = ⟨true, BitVec.ofInt 64 (v.time.num.tdiv v.time.den), position⟩)

/-- FIT: the coefficients are those of the parabola through the three points, with the time origin at t2; FIT answers its exact
vertex if it is no line, the vertex lies in the window and within 4 of the middle input, and rejects otherwise. With two equal
times it rejects (41_signal_processor.md R161, R162). -/
def Obligations.FitIsVertexOfParabola : Prop :=
  (∀ t1 y1 t2 y2 t3 y3 : Int, t1 ≠ t2 → t3 ≠ t2 → t1 ≠ t3 →
    let x1 : Rat := (t1 : Rat) - t2
    let x3 : Rat := (t3 : Rat) - t2
    let d := x1 * x3 * (x1 - x3)
    let a := (((y1 : Rat) - y2) * x3 - ((y3 : Rat) - y2) * x1) / d
    let b := (((y3 : Rat) - y2) * x1 ^ 2 - ((y1 : Rat) - y2) * x3 ^ 2) / d
    a * x1 ^ 2 + b * x1 + y2 = y1 ∧ a * x3 ^ 2 + b * x3 + y2 = y3 ∧
    (∀ a' b' c' : Rat, a' * x1 ^ 2 + b' * x1 + c' = y1 → c' = y2 → a' * x3 ^ 2 + b' * x3 + c' = y3 → a' = a ∧ b' = b) ∧
    fit .exactRational t1 y1 t2 y2 t3 y3 =
      if a ≠ 0 ∧ (t1 : Rat) ≤ -b / (2 * a) + t2 ∧ -b / (2 * a) + t2 ≤ (t3 : Rat) ∧ |b ^ 2 / (4 * a)| ≤ 4
      then some ⟨-b / (2 * a) + t2, (y2 : Rat) - b ^ 2 / (4 * a)⟩ else none) ∧
  ∀ t1 y1 t2 y2 t3 y3 : Int, t1 = t2 ∨ t3 = t2 ∨ t1 = t3 → fit .exactRational t1 y1 t2 y2 t3 y3 = none

/-- Interpolation accuracy: three samples on a parabola, at distinct times, give its exact vertex when it lies in the window and
within 4 of the middle sample (41_signal_processor.md R170, 95_test_vectors.md W7). -/
def Obligations.InterpolationIsExact : Prop :=
  ∀ (t1 y1 t2 y2 t3 y3 : Int) (curvature vertexTime vertexValue : Rat), curvature ≠ 0 → t1 ≠ t2 → t3 ≠ t2 → t1 ≠ t3 →
    (y1 : Rat) = curvature * ((t1 : Rat) - vertexTime) ^ 2 + vertexValue →
    (y2 : Rat) = curvature * ((t2 : Rat) - vertexTime) ^ 2 + vertexValue →
    (y3 : Rat) = curvature * ((t3 : Rat) - vertexTime) ^ 2 + vertexValue →
    (t1 : Rat) ≤ vertexTime → vertexTime ≤ (t3 : Rat) → |vertexValue - (y2 : Rat)| ≤ 4 →
      fit .exactRational t1 y1 t2 y2 t3 y3 = some ⟨vertexTime, vertexValue⟩

/-- The unit-step extremum at increasing times: the biased fit is accepted exactly when `x3² ≤ 8·|x1|·(|x1| + x3)`, for a maximum
and for a minimum, and its vertex is half way to the third sample (41_signal_processor.md R169). -/
def Obligations.UnitStepExtremum : Prop :=
  ∀ t1 p2 t2 t3 : Int, t1 < t2 → t2 < t3 →
    ((fit .exactRational t1 (p2 - 2) t2 p2 t3 p2).isSome = true ↔ (t3 - t2) ^ 2 ≤ 8 * (t2 - t1) * ((t2 - t1) + (t3 - t2))) ∧
    ((fit .exactRational t1 (p2 + 4) t2 (p2 + 2) t3 (p2 + 2)).isSome = true ↔
      (t3 - t2) ^ 2 ≤ 8 * (t2 - t1) * ((t2 - t1) + (t3 - t2))) ∧
    ∀ v, fit .exactRational t1 (p2 - 2) t2 p2 t3 p2 = some v ∨
        fit .exactRational t1 (p2 + 4) t2 (p2 + 2) t3 (p2 + 2) = some v → v.time = (t2 : Rat) + ((t3 - t2 : Int) : Rat) / 2

/-- An accepted vertex stores a valid peak: its time truncated toward zero without wrapping, for sample times that are s64, and its
value rounded, for a middle angle of a tared count and its bias (41_signal_processor.md R163; the bound is
93_implementation_defined.md I15's). -/
def Obligations.PeakTimeFits : Prop :=
  ∀ (t1 t2 t3 : Word) (y1 y2 y3 : Int) (v : Vertex), |y2| ≤ 2 ^ 64 + 2 →
    fit .exactRational t1.toInt y1 t2.toInt y2 t3.toInt y3 = some v →
      ∃ peak, v.toPeak = .ok peak ∧ peak.valid = true ∧ rne v.value = .ok peak.position ∧
        peak.time.toInt = v.time.num.tdiv v.time.den ∧ |(peak.time.toInt : Rat)| ≤ |v.time| ∧
        |v.time - (peak.time.toInt : Rat)| < 1

/-- A record is emitted in exactly the calls that accept a crossing and find both peaks and both half-periods known after their own
peak test, with the fields of 41_signal_processor.md R166; every call emits nothing else (41_signal_processor.md R165, R166).
This hardware's polarity parameter is BOTH; its other values allow one polarity. -/
def Obligations.CycleRule : Prop :=
  (Config.emitPolarity = .both ∧ ∀ rising, polarityAllows .both rising = true ∧
    polarityAllows .risingOnly rising = rising ∧ polarityAllows .fallingOnly rising = !rising) ∧
  (∀ (total count drift tare : Word) (s : State), s.sp.nfill = 0 →
    ∃ t, exec (.spAdd total count drift tare) s = .next t ∧ t.out = s.out) ∧
  ∀ (total count drift tare : Word) (s : State) (prev : Reading), s.sp.floatBounds → 1 ≤ s.sp.nfill →
    s.sp.histRead 1 = .ok prev →
    let c := (BitVec.ofInt 64 (count.toInt - tare.toInt * s.tareFactor)).toInt
    let crosses := (prev.count.toInt ≤ 0 ∧ 0 < c) ∨ (0 ≤ prev.count.toInt ∧ c < 0)
    let ignored := s.sp.lastZc.valid = true ∧ total.toInt - s.sp.lastZc.time.toInt < 100000
    ∃ t, exec (.spAdd total count drift tare) s = .next t ∧
      if crosses ∧ ¬ignored ∧ t.sp.posPeak.valid = true ∧ t.sp.negPeak.valid = true ∧
          f64Positive t.sp.posHalf = true ∧ f64Positive t.sp.negHalf = true then
        ∃ amplitude period, f64Sub t.sp.posPeak.position t.sp.negPeak.position = .ok amplitude ∧
          f64Add t.sp.posHalf t.sp.negHalf = .ok period ∧
          t.out = s.out ++ [.cycle total drift amplitude period s.sp.sens]
      else t.out = s.out

/-- SENSOR is `op = 0x5`; of a kind the block has it stores the value in its entry, and nothing else changes
(41_signal_processor.md R168). -/
def Obligations.SensorStores : Prop :=
  (∀ (high : BitVec 48) (kind : BitVec 16) (value c d : Word), decode ⟨0x5, high ++ kind, value, c, d⟩ = .sensor kind value) ∧
  ∀ (kind : BitVec 16) (value : Word) (s : State), kind.toNat < s.sp.sens.length →
    ∃ t, exec (.sensor kind value) s = .next t ∧
      t = { s with sp := { s.sp with sens := s.sp.sens.set kind.toNat value }, port := s.consume.port } ∧
      t.sp.sens[kind.toNat]? = some value ∧ ∀ k, k ≠ kind.toNat → t.sp.sens[k]? = s.sp.sens[k]?

/-! ## The control surface and refusal -/

/-- TARE_SET is `op = 0x6`; it stores any value in the tare register and nothing else changes: no history entry is rewritten
(42_control.md R201). -/
def Obligations.TareSetResult : Prop :=
  (∀ a b c d, decode ⟨0x6, a, b, c, d⟩ = .tareSet a) ∧
  ∀ (value : Word) (s : State), exec (.tareSet value) s = .next { s with tare := value, port := s.consume.port }

/-- TARE_GET is `op = 0x7`; it answers the register on the `ctl` port and changes no state (42_control.md R202,
30_encoding.md R95). -/
def Obligations.TareGetResult : Prop :=
  (∀ a b c d, decode ⟨0x7, a, b, c, d⟩ = .tareGet) ∧ (∀ v, (Event.tareValue v).port = .ctl) ∧
  ∀ s : State, exec .tareGet s =
    .next { s with port := s.consume.port, out := s.out ++ [.tareValue s.tare] }

/-- A reserved opcode and a SENSOR of a kind the block does not have are consumed, set the mark, emit nothing and change nothing
else (30_encoding.md R88, R97). -/
def Obligations.RefusalOnlyMarks : Prop :=
  (∀ a b c d, decode ⟨0x0, a, b, c, d⟩ = .reservedZero) ∧
  (∀ (op : BitVec 4) (a b c d : Word), 8 ≤ op.toNat → ∃ low, decode ⟨op, a, b, c, d⟩ = .reservedHigh low) ∧
  ∀ s : State,
    exec .reservedZero s = .next { s with refused := true, port := s.consume.port } ∧
    (∀ low, exec (.reservedHigh low) s = .next { s with refused := true, port := s.consume.port }) ∧
    ∀ kind value, s.sp.sens.length ≤ kind.toNat →
      exec (.sensor kind value) s = .next { s with refused := true, port := s.consume.port }

/-- The refusal mark is 0 at launch, is set exactly by a transaction that has no meaning, and is never cleared
(10_state.md R43). -/
def Obligations.RefusedIsSticky : Prop :=
  State.reset.refused = false ∧
  ∀ (i : Instr) (s t : State), exec i s = .next t →
    t.refused = (s.refused || (i.classOf s.sp.sens.length == .refused))

/-- Repeating a SENSOR, a TARE_SET or a TARE_GET with the same operands changes no further state (20_memory.md R69). -/
def Obligations.RepeatedWritesIdempotent : Prop :=
  ∀ (s t u : State) (i : Instr), (∃ kind value, i = .sensor kind value) ∨ (∃ value, i = .tareSet value) ∨ i = .tareGet →
    exec i s = .next t → exec i t = .next u →
      u.dec = t.dec ∧ u.sp = t.sp ∧ u.tare = t.tare ∧ u.refused = t.refused ∧ u.tareFactor = t.tareFactor

/-- SP_ADD carries its own tare: the register has no influence on what it does (42_control.md R203). -/
def Obligations.SpAddIgnoresTareRegister : Prop :=
  ∀ (total count drift tare value : Word) (s : State),
    (∀ t, exec (.spAdd total count drift tare) s = .next t →
      exec (.spAdd total count drift tare) { s with tare := value } = .next { t with tare := value }) ∧
    ∀ f, exec (.spAdd total count drift tare) s = .fault f →
      exec (.spAdd total count drift tare) { s with tare := value } = .fault f

/-! ## Whole-machine rules -/

/-- The values 70_reset_and_hazards.md R251 gives, for every value of the OPEN parameters the block launches with. -/
def Obligations.ResetValues : Prop :=
  ∀ s : State, (s = State.reset ∨ ∃ factor kinds, State.launch factor kinds = .ok s) →
    s.dec = { lastTs := 0, ovfCount := 0, position := 0, epochOffset := 0, firstDev := 0, lastArrival := 0,
              link := .disconnected, errCount := 0, synced := false } ∧
    s.sp.wr.val = 0 ∧ s.sp.nfill = 0 ∧ s.sp.posPeak.valid = false ∧ s.sp.negPeak.valid = false ∧
    s.sp.lastZc.valid = false ∧ s.sp.posHalf = 0x0000000000000000#64 ∧ s.sp.negHalf = 0x0000000000000000#64 ∧
    (∀ v ∈ s.sp.sens, v = 0) ∧ s.tare = 0 ∧ s.refused = false

/-- The events each class may emit, in their order, and the codes of the statuses (60_exceptions.md R223). A held read emits
nothing. -/
def Obligations.EventsOfEachClass : Prop :=
  (StatusCode.connected.number = 0 ∧ StatusCode.disconnected.number = 1 ∧ StatusCode.overflow.number = 2 ∧
    StatusCode.error.number = 3) ∧
  ∀ (i : Instr) (s t : State), exec i s = .next t →
    ∃ evs, t.out = s.out ++ evs ∧
      match i with
      | .connect => evs = [.status .connected false] ∨ evs = [.status .disconnected false, .status .connected false]
      | .frameSentinel _ => evs = if s.dec.link = .connected then [.status .overflow false] else []
      | .frameBadcsum _ _ => evs = if s.dec.link = .connected then [.diag .csumMismatch] else []
      | .frameDataPos _ _ | .frameDataNeg _ _ =>
        if s.dec.link = .connected then
          ∃ r, evs = [.reading r] ∨ ∃ a p, evs = [.reading r, .cycle r.total r.drift a p s.sp.sens]
        else evs = []
      | .rderr =>
        if s.dec.link = .connected then
          evs = [.status .error false] ∨ evs = [.status .error true, .status .disconnected false]
        else evs = []
      | .spAdd total _ drift _ => evs = [] ∨ ∃ a p, evs = [.cycle total drift a p s.sp.sens]
      | .sensor _ _ => evs = []
      | .tareSet _ => evs = []
      | .tareGet => evs = [.tareValue s.tare]
      | .reservedZero => evs = []
      | .reservedHigh _ => evs = []

/-- The block never faults and never lacks a meaning: every instruction completes, and so does every step, wherever the stored
binary64 values are bounded; in any other state the one fault is that of `rne` outside the finite range, in a transaction that adds
a Reading, so HistRead never faults and every other transaction completes (60_exceptions.md R235, 70_reset_and_hazards.md R260,
93_implementation_defined.md I15). -/
def Obligations.BlockNeverFaults : Prop :=
  (∀ (i : Instr) (s : State), s.sp.floatBounds ∨ i.addsReading = false → completes (exec i s)) ∧
  (∀ s : State, s.sp.floatBounds → completes (step s)) ∧
  (∀ (i : Instr) (s : State) (f : Fault), exec i s = .fault f → f = .rneOutOfRange) ∧
  ∀ (i : Instr) (s : State) (r : Refusal), exec i s ≠ .refused r

/-- Each group of state is changed by its own transactions only: the decoder by CONNECT, FRAME and RDERR over a link that is up,
the processor but for the bank by an added Reading, the bank by SENSOR, the tare by TARE_SET; no transaction touches the OPEN
parameters the model holds in State (10_state.md R21, R48, 60_exceptions.md R229; logs 7 and 8). -/
def Obligations.StateOwnership : Prop :=
  ∀ (i : Instr) (s t : State), exec i s = .next t →
    (t.dec ≠ s.dec → i = .connect ∨ (i.serialRead = true ∧ s.dec.link = .connected)) ∧
    ({ t.sp with sens := s.sp.sens } ≠ s.sp → i.addsReading = true) ∧
    (t.sp.sens ≠ s.sp.sens → ∃ kind value, i = .sensor kind value) ∧
    (t.tare ≠ s.tare → ∃ value, i = .tareSet value) ∧
    t.tareFactor = s.tareFactor ∧ t.sp.sens.length = s.sp.sens.length

/-- The link goes up by a CONNECT only, and down by the breaker only, with the terminal ERROR and DISCONNECTED
(10_state.md R30, 60_exceptions.md R226, R227). -/
def Obligations.LinkTransitions : Prop :=
  ∀ s s' : State, step s = .next s' → s'.dec.link ≠ s.dec.link →
    ∃ t, s.presented = some t ∧
      ((s.dec.link = .disconnected ∧ decode t = .connect) ∨
       (s.dec.link = .connected ∧ decode t = .rderr ∧ Config.errLimit ≤ s.dec.errCount + 1 ∧
        s'.out = s.out ++ [.status .error true, .status .disconnected false]))

/-- Every step keeps the decoder's invariant: the error count in its range, below the limit while the link is up, and an
unsynchronised decoder at its reset values (10_state.md R24 to R32). -/
def Obligations.DecoderInvariantKept : Prop :=
  ∀ s s' : State, s.dec.inv → step s = .next s' → s'.dec.inv

/-- Every step keeps the ring's canonical form and the size of the sensor bank (10_state.md R34, R35, R41, R47). -/
def Obligations.RingInvariantKept : Prop :=
  ∀ s s' : State, s.sp.ringInv → s.sp.bankInv → step s = .next s' → s'.sp.ringInv ∧ s'.sp.bankInv

/-- Every step keeps the stored binary64 values bounded, so that no operation on them leaves the finite range; and it keeps them
usable: half-periods +0.0 or positive, and none before a first crossing (10_state.md R39, R40, 41_signal_processor.md R157, R159;
93_implementation_defined.md I15). -/
def Obligations.StoredFloatsFinite : Prop :=
  (∀ s s' : State, s.sp.floatBounds → step s = .next s' → s'.sp.floatBounds) ∧
  ∀ s s' : State, s.sp.floatInv → step s = .next s' → s'.sp.floatInv

/-- The invariants hold at power-on reset, whatever the OPEN parameters the block launches with. The finite positions of the invalid
peaks are the model's choice (log 10), and the range of the opaque number of sensor kinds is that of log 8. -/
def Obligations.ResetMeetsInvariants : Prop :=
  ∀ s : State, (s = State.reset ∨ ∃ factor kinds, State.launch factor kinds = .ok s) →
    s.dec.inv ∧ s.sp.ringInv ∧ s.sp.bankInv ∧ s.sp.floatInv

/-- What 10_state.md R50 calls hidden stays hidden: two states that differ only in history entries older than the newest two, in the
write cursor and in the peaks' times emit the same events for every instruction, and differ in no more afterwards. -/
def Obligations.HiddenStateUnobservable : Prop :=
  ∀ (i : Instr) (s s' : State), s.sameObservable s' →
    (∀ t, exec i s = .next t → ∃ t', exec i s' = .next t' ∧ t.sameObservable t') ∧
    ∀ f, exec i s = .fault f → exec i s' = .fault f

/-! ## Binary64 arithmetic -/

/-- `rne` gives back every finite value but the negative zero, which is equal to the positive one (00_scope.md R12, log 12). -/
def Obligations.RneOfRepresentable : Prop :=
  ∀ x : F64, f64Finite x = true → rne (f64Value x) = .ok (if f64IsZero x then 0 else x)

/-- `rne(q)`, for `q` up to the largest finite value, is a nearest binary64 value, and of two nearest ones the even; above it, it is
the fault of 93_implementation_defined.md I15. The rounding itself overflows to ±infinity (00_scope.md R12). -/
def Obligations.RneIsNearestEven : Prop :=
  (f64Largest = 0x7FEFFFFFFFFFFFFF ∧ ∀ y : F64, f64Finite y = true → |f64Value y| ≤ f64Value f64Largest) ∧
  (∀ q : Rat, |q| ≤ f64Value f64Largest →
    ∃ r, rne q = .ok r ∧ f64Finite r = true ∧
      ∀ y : F64, f64Finite y = true →
        |f64Value r - q| ≤ |f64Value y - q| ∧
        (|f64Value y - q| = |f64Value r - q| → f64Value y ≠ f64Value r → r.getLsbD 0 = false)) ∧
  (∀ q : Rat, f64Value f64Largest < |q| → rne q = .error .rneOutOfRange) ∧
  ∀ q : Rat, 2 ^ 1024 ≤ |q| → roundNearest q = if q < 0 then 0xFFF0000000000000 else 0x7FF0000000000000

/-- The binary64 operations on finite operands are the exact result, rounded once (00_scope.md R12). The sign of an exact zero is
IEEE 754's (log 12), so it is left out here. -/
def Obligations.OperationsRoundOnce : Prop :=
  ∀ x y : F64, f64Finite x = true → f64Finite y = true →
    (f64Value x + f64Value y ≠ 0 → f64Add x y = rne (f64Value x + f64Value y)) ∧
    (f64Value x - f64Value y ≠ 0 → f64Sub x y = rne (f64Value x - f64Value y)) ∧
    (f64IsZero y = false → f64IsZero x = false → f64Div x y = rne (f64Value x / f64Value y))

/-- A half-period is the rounded difference divided by 1.0e6, rounded; for `|Δ| ≤ 2^53` it is the exact quotient rounded once; of
an accepted crossing it is finite, positive and at least 0.1 (41_signal_processor.md R159). The differences of two s64 times are
below 2^64. -/
def Obligations.HalfPeriodValue : Prop :=
  (f64Value f64Million = 10 ^ 6 ∧ ∀ (delta : Int) (x : F64), rne (delta : Rat) = .ok x →
    halfPeriod delta = f64Div x f64Million) ∧
  (∀ delta : Int, |delta| ≤ 2 ^ 53 → halfPeriod delta = rne ((delta : Rat) / 10 ^ 6)) ∧
  ∀ delta : Int, Config.debounceUs ≤ delta → delta < 2 ^ 64 →
    ∃ half, halfPeriod delta = .ok half ∧ f64Finite half = true ∧ f64Positive half = true ∧
      (1 : Rat) / 10 ≤ f64Value half

/-! ## Launch -/

/-- Parameters that break a constraint of 00_scope.md R8 are refused: the check passes exactly where all of R8's constraints hold;
this hardware launches with every tare factor and every number of sensor kinds from 1 to 2^16, with that bank and that factor, and
with no other number; `State.reset` is one such launch. -/
def Obligations.LaunchRefusesBrokenConstraints : Prop :=
  (∀ c : Parameters, c.violation = none ↔
    3 ≤ c.histN ∧ 1 ≤ c.errLimit ∧ 0 ≤ c.resyncGapUs ∧ 0 ≤ c.debounceUs ∧ 1 ≤ c.degPerStep ∧ 0 ≤ c.peakTol ∧
      1 ≤ c.sensorKinds ∧ c.sensorKinds ≤ 2 ^ 16) ∧
  (∀ factor kinds e, (Config.parameters factor kinds).violation = some e → State.launch factor kinds = .error e) ∧
  (∀ factor kinds, 1 ≤ kinds → kinds ≤ 2 ^ 16 →
    ∃ s, State.launch factor kinds = .ok s ∧ s.sp.sens.length = kinds ∧ s.tareFactor = factor) ∧
  (∀ factor kinds, kinds < 1 ∨ 2 ^ 16 < kinds → State.launch factor kinds = .error .sensorKinds) ∧
  State.launch Config.tareStepFactor Config.sensorKinds = .ok State.reset
end

