-- ==== Sys2Proof/Laws/Float.lean ====
section
/-! SUPPORT. What the binary64 operations are made of: the fields and the value of a bit pattern, the floor of a binary logarithm,
rounding to the nearest integer with ties to even, and the value of a rounded magnitude (00_scope.md R12). Then when `rne` and the
operations answer, and how large an answer is (93_implementation_defined.md I15). -/

namespace Sys2Proof.Machine

/-! ## Fields -/

theorem f64Exponent_eq (x : F64) : f64Exponent x = x.toNat / 2 ^ 52 % 2 ^ 11 := by
  simp [f64Exponent, BitVec.extractLsb'_toNat, Nat.shiftRight_eq_div_pow]

theorem f64Fraction_eq (x : F64) : f64Fraction x = x.toNat % 2 ^ 52 := by
  simp [f64Fraction, BitVec.extractLsb'_toNat]

theorem f64Fraction_lt (x : F64) : f64Fraction x < 2 ^ 52 := by
  rw [f64Fraction_eq]; exact Nat.mod_lt _ (by decide)

theorem toNat_f64WithSign (negative : Bool) {m : Nat} (h : m < 2 ^ 63) :
    (f64WithSign negative m).toNat = negative.toNat * 2 ^ 63 + m := by
  have h1 : (BitVec.ofBool negative ++ BitVec.ofNat 63 m : BitVec (1 + 63)).toNat = negative.toNat * 2 ^ 63 + m := by
    have hm : (BitVec.ofNat 63 m).toNat = m := by rw [BitVec.toNat_ofNat]; exact Nat.mod_eq_of_lt h
    rw [BitVec.toNat_append, hm, ← Nat.shiftLeft_add_eq_or_of_lt h, Nat.shiftLeft_eq, BitVec.toNat_ofBool]
  exact h1

theorem f64Exponent_withSign (negative : Bool) {m : Nat} (h : m < 2 ^ 63) :
    f64Exponent (f64WithSign negative m) = m / 2 ^ 52 := by
  rw [f64Exponent_eq, toNat_f64WithSign _ h]
  cases negative <;> simp only [Bool.toNat_true, Bool.toNat_false] <;> omega

theorem f64Fraction_withSign (negative : Bool) {m : Nat} (h : m < 2 ^ 63) :
    f64Fraction (f64WithSign negative m) = m % 2 ^ 52 := by
  rw [f64Fraction_eq, toNat_f64WithSign _ h]
  cases negative <;> simp only [Bool.toNat_true, Bool.toNat_false] <;> omega

theorem msb_f64WithSign (negative : Bool) {m : Nat} (h : m < 2 ^ 63) : (f64WithSign negative m).msb = negative := by
  rw [BitVec.msb_eq_decide, toNat_f64WithSign _ h]
  cases negative <;> simp only [Bool.toNat_true, Bool.toNat_false, decide_eq_true_eq, decide_eq_false_iff_not] <;> omega

/-- A pattern is its sign and its magnitude bits. -/
theorem f64WithSign_self (x : F64) : f64WithSign x.msb (x.toNat % 2 ^ 63) = x := by
  have hx := x.isLt
  apply BitVec.eq_of_toNat_eq
  rw [toNat_f64WithSign _ (Nat.mod_lt _ (by decide)), BitVec.msb_eq_decide]
  by_cases h : 2 ^ (64 - 1) ≤ x.toNat
  · simp only [h, decide_true, Bool.toNat_true]; omega
  · simp only [h, decide_false, Bool.toNat_false]; omega

/-! ## Values -/

/-- The rational of magnitude bits below those of infinity. -/
def magnitudeValue (m : Nat) : Rat :=
  if m / 2 ^ 52 = 0 then (m : Rat) * 2 ^ (-1074 : Int)
  else ((2 ^ 52 + m % 2 ^ 52 : Nat) : Rat) * 2 ^ (((m / 2 ^ 52 : Nat) : Int) - 1075)

theorem mkRat_pow (a k : Nat) : mkRat a (2 ^ k) = (a : Rat) * 2 ^ (-(k : Int)) := by
  rw [Rat.mkRat_eq_div, zpow_neg, zpow_natCast, ← div_eq_mul_inv]; push_cast; rfl

theorem f64Magnitude_eq (x : F64) : f64Magnitude x = magnitudeValue (x.toNat % 2 ^ 63) := by
  have he : f64Exponent x = x.toNat % 2 ^ 63 / 2 ^ 52 := by rw [f64Exponent_eq]; omega
  have hf : f64Fraction x = x.toNat % 2 ^ 63 % 2 ^ 52 := by rw [f64Fraction_eq]; omega
  unfold f64Magnitude magnitudeValue
  rw [he, hf]
  generalize x.toNat % 2 ^ 63 = m
  by_cases h0 : m / 2 ^ 52 = 0
  · rw [if_pos h0, if_pos h0, mkRat_pow, Nat.mod_eq_of_lt (by omega)]; rfl
  · rw [if_neg h0, if_neg h0]
    by_cases h1 : m / 2 ^ 52 < 1075
    · rw [if_pos h1, mkRat_pow, Nat.cast_sub (by omega)]
      congr 2; push_cast; ring
    · rw [if_neg h1, Nat.cast_mul, Nat.cast_pow, ← zpow_natCast, Nat.cast_sub (by omega)]
      push_cast; rfl

theorem f64Value_eq (x : F64) : f64Value x =
    if x.msb then -magnitudeValue (x.toNat % 2 ^ 63) else magnitudeValue (x.toNat % 2 ^ 63) := by
  rw [f64Value, f64Magnitude_eq]

theorem f64Value_withSign (negative : Bool) {m : Nat} (h : m < 2 ^ 63) :
    f64Value (f64WithSign negative m) = if negative then -magnitudeValue m else magnitudeValue m := by
  have hm : (f64WithSign negative m).toNat % 2 ^ 63 = m := by
    rw [toNat_f64WithSign _ h]; cases negative <;> simp only [Bool.toNat_true, Bool.toNat_false] <;> omega
  rw [f64Value_eq, msb_f64WithSign _ h, hm]

/-- Every magnitude is a whole number of at most 53 bits times a power of two. -/
theorem magnitudeValue_form (m : Nat) : ∃ (k : Nat) (e : Int), k < 2 ^ 53 ∧ -1074 ≤ e ∧ magnitudeValue m = (k : Rat) * 2 ^ e ∧
    (e = -1074 ∨ 2 ^ 52 ≤ k) ∧ m = (e + 1074).toNat * 2 ^ 52 + k := by
  unfold magnitudeValue
  by_cases h0 : m / 2 ^ 52 = 0
  · exact ⟨m, -1074, by omega, by omega, by rw [if_pos h0], .inl rfl, by omega⟩
  · refine ⟨2 ^ 52 + m % 2 ^ 52, ((m / 2 ^ 52 : Nat) : Int) - 1075, by omega, by omega, by rw [if_neg h0], .inr (by omega), ?_⟩
    omega

/-- The bits of a significand and an exponent stand for their product, the carry out of the significand included. -/
theorem magnitudeValue_round {lsb : Int} {k : Nat} (hl : -1074 ≤ lsb) (hk : k ≤ 2 ^ 53) (hn : lsb = -1074 ∨ 2 ^ 52 ≤ k) :
    magnitudeValue ((lsb + 1074).toNat * 2 ^ 52 + k) = (k : Rat) * 2 ^ lsb := by
  obtain ⟨e, rfl⟩ : ∃ e : Nat, lsb = (e : Int) - 1074 := ⟨(lsb + 1074).toNat, by omega⟩
  have he : ((e : Int) - 1074 + 1074).toNat = e := by omega
  rw [he]
  unfold magnitudeValue
  by_cases h0 : (e * 2 ^ 52 + k) / 2 ^ 52 = 0
  · have : e = 0 := by omega
    subst this
    rw [if_pos h0]; simp
  · rw [if_neg h0]
    rcases Nat.lt_or_ge k (2 ^ 52) with h1 | h1
    · have : e = 0 := by omega
      subst this; omega
    · rcases Nat.lt_or_ge k (2 ^ 53) with h2 | h2
      · have a1 : (e * 2 ^ 52 + k) / 2 ^ 52 = e + 1 := by omega
        have a2 : 2 ^ 52 + (e * 2 ^ 52 + k) % 2 ^ 52 = k := by omega
        rw [a1, a2]; congr 2; push_cast; ring
      · have a0 : k = 2 ^ 53 := by omega
        have a1 : (e * 2 ^ 52 + k) / 2 ^ 52 = e + 2 := by omega
        have a2 : 2 ^ 52 + (e * 2 ^ 52 + k) % 2 ^ 52 = 2 ^ 52 := by omega
        have a3 : (((e + 2 : Nat) : Int) - 1075) = ((e : Int) - 1074) + 1 := by push_cast; ring
        rw [a1, a2, a0, a3, zpow_add₀ (by norm_num : (2 : Rat) ≠ 0)]
        push_cast; ring

/-! ## Rounding a ratio -/

theorem floorLog2Ratio_spec {n d : Nat} (hn : 0 < n) (hd : 0 < d) :
    (2 : Rat) ^ floorLog2Ratio n d ≤ (n : Rat) / d ∧ (n : Rat) / d < 2 ^ (floorLog2Ratio n d + 1) := by
  have n1 : 2 ^ n.log2 ≤ n := Nat.log2_self_le (by omega)
  have n2 : n < 2 ^ (n.log2 + 1) := Nat.lt_log2_self
  have d1 : 2 ^ d.log2 ≤ d := Nat.log2_self_le (by omega)
  have d2 : d < 2 ^ (d.log2 + 1) := Nat.lt_log2_self
  have hdq : (0 : Rat) < d := by exact_mod_cast hd
  have h2 : (2 : Rat) ≠ 0 := by norm_num
  have n1q : (2 : Rat) ^ (n.log2 : Int) ≤ n := by rw [zpow_natCast]; exact_mod_cast n1
  have n2q : (n : Rat) < 2 ^ ((n.log2 : Int) + 1) := by
    rw [show ((n.log2 : Int) + 1) = ((n.log2 + 1 : Nat) : Int) by push_cast; rfl, zpow_natCast]; exact_mod_cast n2
  have d1q : (2 : Rat) ^ (d.log2 : Int) ≤ d := by rw [zpow_natCast]; exact_mod_cast d1
  have d2q : (d : Rat) < 2 ^ ((d.log2 : Int) + 1) := by
    rw [show ((d.log2 : Int) + 1) = ((d.log2 + 1 : Nat) : Int) by push_cast; rfl, zpow_natCast]; exact_mod_cast d2
  unfold floorLog2Ratio
  simp only
  generalize hk : (n.log2 : Int) - (d.log2 : Int) = k
  have hnd : (n.log2 : Int) = k + d.log2 := by omega
  rw [hnd] at n1q n2q
  -- the shifted comparison is the comparison with 2^k
  have hcmp : (d <<< k.toNat ≤ n <<< (-k).toNat) ↔ (2 : Rat) ^ k ≤ (n : Rat) / d := by
    rw [le_div_iff₀ hdq, Nat.shiftLeft_eq, Nat.shiftLeft_eq]
    rcases le_total 0 k with h | h
    · obtain ⟨j, rfl⟩ := Int.eq_ofNat_of_zero_le h
      have : (-(j : Int)).toNat = 0 := by omega
      rw [this, zpow_natCast, Int.toNat_natCast, mul_comm ((2 : Rat) ^ j), pow_zero, mul_one]
      exact_mod_cast Iff.rfl
    · obtain ⟨j, hj⟩ := Int.eq_ofNat_of_zero_le (by omega : 0 ≤ -k)
      have hk' : k = -(j : Int) := by omega
      subst hk'
      have : (-(j : Int)).toNat = 0 := by omega
      rw [this, neg_neg, Int.toNat_natCast, zpow_neg, zpow_natCast, pow_zero, mul_one, inv_mul_le_iff₀ (by positivity),
        mul_comm ((2 : Rat) ^ j)]
      exact_mod_cast Iff.rfl
  by_cases h : d <<< k.toNat ≤ n <<< (-k).toNat
  · rw [if_pos h]
    refine ⟨hcmp.1 h, ?_⟩
    rw [div_lt_iff₀ hdq]
    calc (n : Rat) < 2 ^ (k + d.log2 + 1) := n2q
      _ = 2 ^ (k + 1) * 2 ^ (d.log2 : Int) := by rw [← zpow_add₀ h2]; congr 1; ring
      _ ≤ 2 ^ (k + 1) * d := by gcongr
  · rw [if_neg h]
    have h' : (n : Rat) / d < 2 ^ k := not_le.1 (fun x => h (hcmp.2 x))
    refine ⟨?_, by rwa [sub_add_cancel]⟩
    rw [le_div_iff₀ hdq]
    calc (2 : Rat) ^ (k - 1) * d ≤ 2 ^ (k - 1) * 2 ^ ((d.log2 : Int) + 1) := by gcongr
      _ = 2 ^ (k + d.log2) := by rw [← zpow_add₀ h2]; congr 1; ring
      _ ≤ n := n1q

/-- The rounded integer is within one half of the exact one, and even where it is exactly one half away. -/
theorem roundHalfEven_spec (n : Nat) {d : Nat} (hd : 0 < d) (lsb : Int) :
    |(roundHalfEven n d lsb : Rat) - (n : Rat) / d / 2 ^ lsb| ≤ 1 / 2 ∧
      (|(roundHalfEven n d lsb : Rat) - (n : Rat) / d / 2 ^ lsb| = 1 / 2 → roundHalfEven n d lsb % 2 = 0) := by
  have hden : 0 < d <<< lsb.toNat := by rw [Nat.shiftLeft_eq]; positivity
  have hval : (n : Rat) / d / 2 ^ lsb = ((n <<< (-lsb).toNat : Nat) : Rat) / ((d <<< lsb.toNat : Nat) : Rat) := by
    have hdq : (d : Rat) ≠ 0 := by positivity
    rw [Nat.shiftLeft_eq, Nat.shiftLeft_eq]
    rcases le_total 0 lsb with h | h
    · obtain ⟨j, rfl⟩ := Int.eq_ofNat_of_zero_le h
      have : (-(j : Int)).toNat = 0 := by omega
      rw [this, zpow_natCast, Int.toNat_natCast]; push_cast; field_simp
    · obtain ⟨j, hj⟩ := Int.eq_ofNat_of_zero_le (by omega : 0 ≤ -lsb)
      have hk' : lsb = -(j : Int) := by omega
      subst hk'
      have : (-(j : Int)).toNat = 0 := by omega
      rw [this, neg_neg, Int.toNat_natCast, zpow_neg, zpow_natCast]; push_cast; field_simp
  rw [hval]
  unfold roundHalfEven
  simp only
  generalize n <<< (-lsb).toNat = a at *
  generalize d <<< lsb.toNat = b at *
  have hb : (0 : Rat) < b := by exact_mod_cast hden
  have hdm : (a : Rat) / b = (a / b : Nat) + ((a % b : Nat) : Rat) / b := by
    have : (a : Rat) = b * (a / b : Nat) + (a % b : Nat) := by exact_mod_cast (Nat.div_add_mod a b).symm
    conv_lhs => rw [this]
    field_simp
  rw [hdm]
  generalize a / b = q at *
  have hr : a % b < b := Nat.mod_lt _ hden
  generalize a % b = r at *
  have r0 : (0 : Rat) ≤ (r : Rat) / b := by positivity
  split
  · rename_i h
    have : (r : Rat) / b < 1 / 2 := by
      rw [div_lt_div_iff₀ hb (by norm_num)]; have : (2 * r : Rat) < b := by exact_mod_cast h
      linarith
    rw [show (q : Rat) - (q + (r : Rat) / b) = -((r : Rat) / b) by ring, abs_neg, abs_of_nonneg r0]
    exact ⟨this.le, fun h => absurd h this.ne⟩
  · split
    · rename_i h
      have h1 : 1 / 2 < (r : Rat) / b := by
        rw [div_lt_div_iff₀ (by norm_num) hb]; have : (b : Rat) < 2 * r := by exact_mod_cast h
        linarith
      have h2 : (r : Rat) / b < 1 := by rw [div_lt_one hb]; exact_mod_cast hr
      rw [show ((q + 1 : Nat) : Rat) - (q + (r : Rat) / b) = 1 - (r : Rat) / b by push_cast; ring,
        abs_of_pos (by linarith)]
      exact ⟨by linarith, fun h => by linarith⟩
    · rename_i h3 h4
      have hh : 2 * r = b := by omega
      have h1 : (r : Rat) / b = 1 / 2 := by
        rw [div_eq_div_iff hb.ne' (by norm_num)]; have : (2 * r : Rat) = b := by exact_mod_cast hh
        linarith
      rw [h1]
      rcases Nat.mod_two_eq_zero_or_one q with hq | hq
      · rw [hq, Nat.add_zero]
        refine ⟨?_, fun _ => hq⟩
        rw [show (q : Rat) - (q + 1 / 2) = -(1 / 2) by ring, abs_neg, abs_of_pos (by norm_num)]
      · rw [hq]
        refine ⟨?_, fun _ => by omega⟩
        rw [show ((q + 1 : Nat) : Rat) - (q + 1 / 2) = 1 / 2 by push_cast; ring, abs_of_pos (by norm_num)]

/-- Everything the rounding of a positive ratio is: a significand and the exponent of its last place, the significand within one
half of the exact one and even on a tie, the last place as fine as 53 bits and the subnormal range allow. -/
theorem roundMagnitude_spec {n d : Nat} (hn : 0 < n) (hd : 0 < d) : ∃ (lsb : Int) (k : Nat),
    -1074 ≤ lsb ∧ k ≤ 2 ^ 53 ∧ (lsb = -1074 ∨ 2 ^ 52 ≤ k) ∧
    roundMagnitude n d = min ((lsb + 1074).toNat * 2 ^ 52 + k) f64InfinityBits ∧
    |(k : Rat) - (n : Rat) / d / 2 ^ lsb| ≤ 1 / 2 ∧ (|(k : Rat) - (n : Rat) / d / 2 ^ lsb| = 1 / 2 → k % 2 = 0) ∧
    (lsb = -1074 ∨ (2 : Rat) ^ (lsb + 52) ≤ (n : Rat) / d) ∧ (n : Rat) / d < 2 ^ (lsb + 53) := by
  have two0 : (2 : Rat) ≠ 0 := by norm_num
  obtain ⟨h1, h2⟩ := floorLog2Ratio_spec hn hd
  set lsb := max (floorLog2Ratio n d - 52) (-1074) with hl
  obtain ⟨r1, r2⟩ := roundHalfEven_spec n hd lsb
  have hup : (n : Rat) / d < 2 ^ (lsb + 53) :=
    lt_of_lt_of_le h2 (zpow_le_zpow_right₀ (by norm_num) (by omega))
  have hlo : lsb = -1074 ∨ (2 : Rat) ^ (lsb + 52) ≤ (n : Rat) / d := by
    by_cases h : lsb = -1074
    · exact .inl h
    · right
      have : lsb + 52 = floorLog2Ratio n d := by omega
      rw [this]; exact h1
  have hp : (0 : Rat) < 2 ^ lsb := by positivity
  have hk : roundHalfEven n d lsb ≤ 2 ^ 53 := by
    have x1 : (n : Rat) / d / 2 ^ lsb < 2 ^ 53 := by
      rw [div_lt_iff₀ hp, ← zpow_natCast, ← zpow_add₀ two0, add_comm]; exact hup
    have := abs_le.1 r1
    have h : (roundHalfEven n d lsb : Rat) < ((2 ^ 53 + 1 : Nat) : Rat) := by push_cast; linarith
    have := Nat.cast_lt.1 h
    omega
  have hk2 : lsb = -1074 ∨ 2 ^ 52 ≤ roundHalfEven n d lsb := by
    refine hlo.imp_right fun h => ?_
    have x2 : (2 : Rat) ^ 52 ≤ (n : Rat) / d / 2 ^ lsb := by
      rw [le_div_iff₀ hp, ← zpow_natCast, ← zpow_add₀ two0, add_comm]; exact h
    have := abs_le.1 r1
    have h : ((2 ^ 52 - 1 : Nat) : Rat) < roundHalfEven n d lsb := by push_cast; linarith
    have := Nat.cast_lt.1 h
    omega
  exact ⟨lsb, _, by omega, hk, hk2, rfl, r1, r2, hlo, hup⟩

/-! ## Signs -/

/-- The other sign has the same magnitude bits. -/
theorem f64Neg_fields (x : F64) : (f64Neg x).toNat % 2 ^ 63 = x.toNat % 2 ^ 63 ∧ (f64Neg x).msb = !x.msb := by
  constructor
  · have h : ∀ y : BitVec 64, y.toNat % 2 ^ 63 = (y.setWidth 63).toNat := fun y => by simp
    rw [h, h]
    congr 1
    refine BitVec.eq_of_getLsbD_eq fun i hi => ?_
    simp [f64Neg]
  · have h : (0x8000000000000000#64).msb = true := by decide
    simp [f64Neg, BitVec.msb_xor, h]

theorem f64Value_neg (x : F64) : f64Value (f64Neg x) = -f64Value x := by
  rw [f64Value_eq, f64Value_eq, (f64Neg_fields x).1, (f64Neg_fields x).2]; cases x.msb <;> simp

theorem f64Finite_neg (x : F64) : f64Finite (f64Neg x) = f64Finite x := by
  have h : f64Exponent (f64Neg x) = f64Exponent x := by
    have := (f64Neg_fields x).1
    rw [f64Exponent_eq, f64Exponent_eq]; omega
  simp [f64Finite, h]

theorem f64Finite_withSign (negative : Bool) {m : Nat} (h : m < f64InfinityBits) :
    f64Finite (f64WithSign negative m) = true := by
  simp only [f64InfinityBits] at h
  rw [f64Finite, f64Exponent_withSign _ (by omega)]
  simp; omega

/-! ## When `rne` answers, and how large the answer is -/

theorem magnitudeValue_nonneg (m : Nat) : 0 ≤ magnitudeValue m := by
  obtain ⟨k, e, -, -, h, -⟩ := magnitudeValue_form m
  rw [h]; positivity

theorem abs_f64Value (x : F64) : |f64Value x| = magnitudeValue (x.toNat % 2 ^ 63) := by
  rw [f64Value_eq]
  cases x.msb <;> simp [abs_of_nonneg (magnitudeValue_nonneg _)]

theorem abs_f64Value_withSign (negative : Bool) {m : Nat} (h : m < 2 ^ 63) :
    |f64Value (f64WithSign negative m)| = magnitudeValue m := by
  rw [f64Value_withSign _ h]
  cases negative <;> simp [abs_of_nonneg (magnitudeValue_nonneg _)]

/-- A positive ratio that is not huge rounds to a finite magnitude of at most twice its size, but for the smallest ones. -/
theorem roundMagnitude_bound {n d : Nat} (hn : 0 < n) (hd : 0 < d) (h : (n : Rat) / d ≤ 2 ^ 70) :
    roundMagnitude n d < f64InfinityBits ∧ magnitudeValue (roundMagnitude n d) ≤ 2 * ((n : Rat) / d) + 1 := by
  have two0 : (2 : Rat) ≠ 0 := by norm_num
  obtain ⟨lsb, k, a1, a2, a3, a4, -, -, a7, -⟩ := roundMagnitude_spec hn hd
  have hlsb : lsb ≤ 18 := by
    rcases a7 with h' | h'
    · omega
    · have h70 : (2 : Rat) ^ (lsb + 52) ≤ 2 ^ (70 : Int) := h'.trans (h.trans_eq (by norm_num))
      have := (zpow_le_zpow_iff_right₀ (by norm_num : (1 : Rat) < 2)).1 h70
      omega
  have hlt : (lsb + 1074).toNat * 2 ^ 52 + k < f64InfinityBits := by simp only [f64InfinityBits]; omega
  rw [a4, min_eq_left hlt.le]
  refine ⟨hlt, ?_⟩
  rw [magnitudeValue_round a1 a2 a3]
  have hk : (k : Rat) ≤ 2 ^ 53 := by exact_mod_cast a2
  have hq : (0 : Rat) ≤ (n : Rat) / d := by positivity
  rcases a7 with h' | h'
  · have : (2 : Rat) ^ lsb ≤ 2 ^ (-53 : Int) := zpow_le_zpow_right₀ (by norm_num) (by omega)
    calc (k : Rat) * 2 ^ lsb ≤ 2 ^ 53 * 2 ^ (-53 : Int) := by gcongr
      _ = 1 := by norm_num
      _ ≤ _ := by linarith
  · calc (k : Rat) * 2 ^ lsb ≤ 2 ^ 53 * 2 ^ lsb := by gcongr
      _ = 2 * 2 ^ (lsb + 52) := by rw [zpow_add₀ two0]; norm_num; ring
      _ ≤ _ := by linarith

theorem natAbs_num_div_den (q : Rat) : ((q.num.natAbs : Nat) : Rat) / q.den = |q| := by
  rw [Rat.abs_def, Rat.divInt_eq_div, Int.cast_natCast, Int.cast_natCast]

theorem roundNearest_bound {q : Rat} (h : |q| ≤ 2 ^ 70) :
    f64Finite (roundNearest q) = true ∧ |f64Value (roundNearest q)| ≤ 2 * |q| + 1 := by
  unfold roundNearest
  split
  · exact ⟨by decide, (show |f64Value 0| ≤ 0 by decide +kernel).trans (by positivity)⟩
  · rename_i h0
    obtain ⟨b1, b2⟩ := roundMagnitude_bound (n := q.num.natAbs) (d := q.den) (by omega) q.pos (by rwa [natAbs_num_div_den])
    rw [natAbs_num_div_den] at b2
    have hm : roundMagnitude q.num.natAbs q.den < 2 ^ 63 := by simp only [f64InfinityBits] at b1; omega
    exact ⟨f64Finite_withSign _ b1, by rwa [abs_f64Value_withSign _ hm]⟩

theorem f64Value_largest : f64Value f64Largest = (2 ^ 53 - 1) * 2 ^ (971 : Int) := by decide +kernel

/-- `rne` answers the rounded value on the finite range, and faults above it. -/
theorem rne_eq_ok {q : Rat} {x : F64} : rne q = .ok x ↔ |q| ≤ f64Value f64Largest ∧ roundNearest q = x := by
  unfold rne; split <;> simp_all

theorem rne_error {q : Rat} {f : Fault} (h : rne q = .error f) : f = .rneOutOfRange := by
  unfold rne at h; split at h <;> simp_all

theorem rne_ok {q : Rat} (h : |q| ≤ 2 ^ 70) : rne q = .ok (roundNearest q) := by
  refine rne_eq_ok.2 ⟨h.trans ?_, rfl⟩
  have h1 : (1 : Rat) ≤ 2 ^ (871 : Int) := one_le_zpow₀ (by norm_num) (by norm_num)
  rw [f64Value_largest, show (971 : Int) = 100 + 871 by norm_num, zpow_add₀ (by norm_num : (2 : Rat) ≠ 0)]
  generalize (2 : Rat) ^ (871 : Int) = t at *
  norm_num at *; linarith

/-! ## The operations on bounded operands -/

theorem f64IsNan_finite {x : F64} (h : f64Finite x = true) : f64IsNan x = false := by
  simp [f64Finite] at h; simp [f64IsNan, h]

/-- A rounded value of a rational up to 2^65 - 1 is bounded. -/
theorem f64Bounded_roundNearest {q : Rat} (h : |q| ≤ 2 ^ 65 - 1) : f64Bounded (roundNearest q) := by
  obtain ⟨h1, h2⟩ := roundNearest_bound (h.trans (by norm_num))
  exact ⟨h1, by linarith⟩

theorem f64Bounded_neg {x : F64} (h : f64Bounded x) : f64Bounded (f64Neg x) :=
  ⟨by rw [f64Finite_neg]; exact h.1, by rw [f64Value_neg, abs_neg]; exact h.2⟩

theorem f64Bounded_zero (negative : Bool) : f64Bounded (f64WithSign negative 0) := by
  cases negative <;> decide +kernel

theorem f64Add_ok {x y : F64} (hx : f64Bounded x) (hy : f64Bounded y) : ∃ z, f64Add x y = .ok z := by
  have h : |f64Value x + f64Value y| ≤ 2 ^ 70 := by
    have := abs_add_le (f64Value x) (f64Value y)
    have := hx.2; have := hy.2
    linarith
  simp only [f64Add, f64IsNan_finite hx.1, f64IsNan_finite hy.1, hx.1, hy.1, rne_ok h]
  repeat' split
  all_goals simp

theorem f64Sub_ok {x y : F64} (hx : f64Bounded x) (hy : f64Bounded y) : ∃ z, f64Sub x y = .ok z :=
  f64Add_ok hx (f64Bounded_neg hy)

/-- The one way the operations fault. -/
theorem f64Add_error {x y : F64} {f : Fault} (h : f64Add x y = .error f) : f = .rneOutOfRange := by
  unfold f64Add at h
  repeat' split at h
  all_goals first | exact absurd h (by simp) | exact rne_error h

theorem f64Sub_error {x y : F64} {f : Fault} (h : f64Sub x y = .error f) : f = .rneOutOfRange := f64Add_error h

theorem f64Div_error {x y : F64} {f : Fault} (h : f64Div x y = .error f) : f = .rneOutOfRange := by
  unfold f64Div at h
  repeat' split at h
  all_goals first | exact absurd h (by simp) | exact rne_error h

theorem halfPeriod_error {delta : Int} {f : Fault} (h : halfPeriod delta = .error f) : f = .rneOutOfRange := by
  unfold halfPeriod at h
  split at h
  · rename_i h'; cases h; exact rne_error h'
  · exact f64Div_error h

theorem f64Value_million : f64Value f64Million = 10 ^ 6 := by decide +kernel

/-- A half-period between any two s64 times answers, and is bounded (93_implementation_defined.md I15). -/
theorem halfPeriod_ok (a b : Word) : ∃ half, halfPeriod (asS64 a - asS64 b) = .ok half ∧ f64Bounded half := by
  have hd : |((asS64 a - asS64 b : Int) : Rat)| ≤ 2 ^ 64 := by
    have h : |asS64 a - asS64 b| ≤ 2 ^ 64 := by
      have := BitVec.toInt_lt (x := a); have := BitVec.le_toInt a
      have := BitVec.toInt_lt (x := b); have := BitVec.le_toInt b
      rw [abs_le]; simp only [asS64]; omega
    exact_mod_cast h
  have hm : f64Finite f64Million = true ∧ f64IsZero f64Million = false := by decide
  unfold halfPeriod
  rw [rne_ok (hd.trans (by norm_num))]
  obtain ⟨h1, h2⟩ := roundNearest_bound (hd.trans (by norm_num))
  generalize roundNearest ((asS64 a - asS64 b : Int) : Rat) = x at h1 h2
  cases hz : f64IsZero x with
  | true => exact ⟨_, by simp [f64Div, f64IsNan_finite h1, f64IsNan_finite hm.1, h1, hm, hz]; rfl, f64Bounded_zero _⟩
  | false =>
    have hq : |f64Value x / f64Value f64Million| ≤ 2 ^ 65 - 1 := by
      rw [f64Value_million, abs_div, div_le_iff₀ (by norm_num)]
      norm_num at *; linarith
    exact ⟨_, by simp [f64Div, f64IsNan_finite h1, f64IsNan_finite hm.1, h1, hm, hz, rne_ok (hq.trans (by norm_num))],
      f64Bounded_roundNearest hq⟩

end Sys2Proof.Machine
end

