-- ==== Sys2Proof/Laws/Fit.lean ====
section
/-! SUPPORT. What FIT answers: an accepted vertex lies in the window and within the tolerance of the middle input
(41_signal_processor.md R162), so that the peak it stores is one (R163). -/

namespace Sys2Proof.Machine

theorem fit_some {t1 y1 t2 y2 t3 y3 : Int} {v : Vertex} (h : fit .exactRational t1 y1 t2 y2 t3 y3 = some v) :
    (t1 : Rat) ≤ v.time ∧ v.time ≤ (t3 : Rat) ∧ |v.value - (y2 : Rat)| ≤ 4 := by
  unfold fit fitExact at h
  simp only at h
  split at h
  · cases h
  · split at h
    · cases h
    · split at h
      · rename_i h'
        cases h
        exact ⟨h'.1, h'.2.1, by simpa [Config.peakTol] using h'.2.2⟩
      · cases h

/-- Twice an s64 count plus a bias of at most 2 (41_signal_processor.md R154, R164). -/
theorem angle_bound (e : Reading) {b : Int} (h0 : 0 ≤ b) (h2 : b ≤ 2) : |((angle e + b : Int) : Rat)| ≤ 2 ^ 64 + 2 := by
  have h : |angle e + b| ≤ 2 ^ 64 + 2 := by
    have := BitVec.toInt_lt (x := e.count)
    have := BitVec.le_toInt e.count
    simp only [angle, asS64, Config.degPerStep]
    rw [abs_le]; omega
  exact_mod_cast h

theorem Vertex.toPeak_error {v : Vertex} {f : Fault} (h : v.toPeak = .error f) : f = .rneOutOfRange := by
  unfold Vertex.toPeak at h
  cases hr : rne v.value with
  | error g => rw [hr] at h; cases h; exact rne_error hr
  | ok x => rw [hr] at h; cases h

/-- An accepted vertex of a window whose middle angle is an entry's stores a peak with a bounded position
(93_implementation_defined.md I15). -/
theorem Vertex.toPeak_ok {t1 y1 t2 t3 y3 b : Int} {e : Reading} {v : Vertex} (h0 : 0 ≤ b) (h2 : b ≤ 2)
    (h : fit .exactRational t1 y1 t2 (angle e + b) t3 y3 = some v) :
    v.toPeak = .ok ⟨true, wrap64 (truncRat v.time), roundNearest v.value⟩ ∧ f64Bounded (roundNearest v.value) := by
  have hv : |v.value| ≤ 2 ^ 65 - 1 := by
    have h1 := abs_le.1 (fit_some h).2.2
    have h2 := abs_le.1 (angle_bound e h0 h2)
    rw [abs_le]; constructor <;> linarith
  exact ⟨by rw [Vertex.toPeak, rne_ok (hv.trans (by norm_num))]; rfl, f64Bounded_roundNearest hv⟩

end Sys2Proof.Machine
end

