-- ==== Sys2Proof/Laws/State.lean ====
section
/-! SUPPORT. One lemma per field per update of the state, true by definition, so that no later proof unfolds a record update. -/

namespace Sys2Proof.Machine

variable (s : State) (p : Processor)

@[simp] theorem State.consume_dec : s.consume.dec = s.dec := rfl
@[simp] theorem State.consume_sp : s.consume.sp = s.sp := rfl
@[simp] theorem State.consume_tare : s.consume.tare = s.tare := rfl
@[simp] theorem State.consume_refused : s.consume.refused = s.refused := rfl
@[simp] theorem State.consume_tareFactor : s.consume.tareFactor = s.tareFactor := rfl
@[simp] theorem State.consume_port : s.consume.port = s.port.eraseP (fun t => !s.holds t) := rfl
@[simp] theorem State.consume_out : s.consume.out = s.out := rfl

@[simp] theorem State.emit_dec (es : List Event) : (s.emit es).dec = s.dec := rfl
@[simp] theorem State.emit_sp (es : List Event) : (s.emit es).sp = s.sp := rfl
@[simp] theorem State.emit_tare (es : List Event) : (s.emit es).tare = s.tare := rfl
@[simp] theorem State.emit_refused (es : List Event) : (s.emit es).refused = s.refused := rfl
@[simp] theorem State.emit_tareFactor (es : List Event) : (s.emit es).tareFactor = s.tareFactor := rfl
@[simp] theorem State.emit_port (es : List Event) : (s.emit es).port = s.port := rfl
@[simp] theorem State.emit_out (es : List Event) : (s.emit es).out = s.out ++ es := rfl

@[simp] theorem State.markRefused_dec : s.markRefused.dec = s.dec := rfl
@[simp] theorem State.markRefused_sp : s.markRefused.sp = s.sp := rfl
@[simp] theorem State.markRefused_tare : s.markRefused.tare = s.tare := rfl
@[simp] theorem State.markRefused_refused : s.markRefused.refused = true := rfl
@[simp] theorem State.markRefused_tareFactor : s.markRefused.tareFactor = s.tareFactor := rfl
@[simp] theorem State.markRefused_port : s.markRefused.port = s.port := rfl
@[simp] theorem State.markRefused_out : s.markRefused.out = s.out := rfl

@[simp] theorem State.withDec_dec (d : Decoder) : (s.withDec d).dec = d := rfl
@[simp] theorem State.withDec_sp (d : Decoder) : (s.withDec d).sp = s.sp := rfl
@[simp] theorem State.withDec_tare (d : Decoder) : (s.withDec d).tare = s.tare := rfl
@[simp] theorem State.withDec_refused (d : Decoder) : (s.withDec d).refused = s.refused := rfl
@[simp] theorem State.withDec_tareFactor (d : Decoder) : (s.withDec d).tareFactor = s.tareFactor := rfl
@[simp] theorem State.withDec_port (d : Decoder) : (s.withDec d).port = s.port := rfl
@[simp] theorem State.withDec_out (d : Decoder) : (s.withDec d).out = s.out := rfl

@[simp] theorem State.withSp_dec (p : Processor) : (s.withSp p).dec = s.dec := rfl
@[simp] theorem State.withSp_sp (p : Processor) : (s.withSp p).sp = p := rfl
@[simp] theorem State.withSp_tare (p : Processor) : (s.withSp p).tare = s.tare := rfl
@[simp] theorem State.withSp_refused (p : Processor) : (s.withSp p).refused = s.refused := rfl
@[simp] theorem State.withSp_tareFactor (p : Processor) : (s.withSp p).tareFactor = s.tareFactor := rfl
@[simp] theorem State.withSp_port (p : Processor) : (s.withSp p).port = s.port := rfl
@[simp] theorem State.withSp_out (p : Processor) : (s.withSp p).out = s.out := rfl

@[simp] theorem State.withTare_dec (v : Word) : (s.withTare v).dec = s.dec := rfl
@[simp] theorem State.withTare_sp (v : Word) : (s.withTare v).sp = s.sp := rfl
@[simp] theorem State.withTare_tare (v : Word) : (s.withTare v).tare = v := rfl
@[simp] theorem State.withTare_refused (v : Word) : (s.withTare v).refused = s.refused := rfl
@[simp] theorem State.withTare_tareFactor (v : Word) : (s.withTare v).tareFactor = s.tareFactor := rfl
@[simp] theorem State.withTare_port (v : Word) : (s.withTare v).port = s.port := rfl
@[simp] theorem State.withTare_out (v : Word) : (s.withTare v).out = s.out := rfl

@[simp] theorem State.refuse_dec : s.refuse.dec = s.dec := rfl
@[simp] theorem State.refuse_sp : s.refuse.sp = s.sp := rfl
@[simp] theorem State.refuse_tare : s.refuse.tare = s.tare := rfl
@[simp] theorem State.refuse_refused : s.refuse.refused = true := rfl
@[simp] theorem State.refuse_tareFactor : s.refuse.tareFactor = s.tareFactor := rfl
@[simp] theorem State.refuse_port : s.refuse.port = s.port.eraseP (fun t => !s.holds t) := rfl
@[simp] theorem State.refuse_out : s.refuse.out = s.out := rfl

@[simp] theorem Processor.histWrite_hist (e : Reading) : (p.histWrite e).hist = p.hist.set p.wr e := rfl
@[simp] theorem Processor.histWrite_wr (e : Reading) : (p.histWrite e).wr = ⟨(p.wr.val + 1) % Config.histN, Nat.mod_lt _ (by decide)⟩ := rfl
@[simp] theorem Processor.histWrite_nfill (e : Reading) : (p.histWrite e).nfill = min Config.histN (p.nfill + 1) := rfl
@[simp] theorem Processor.histWrite_posPeak (e : Reading) : (p.histWrite e).posPeak = p.posPeak := rfl
@[simp] theorem Processor.histWrite_negPeak (e : Reading) : (p.histWrite e).negPeak = p.negPeak := rfl
@[simp] theorem Processor.histWrite_lastZc (e : Reading) : (p.histWrite e).lastZc = p.lastZc := rfl
@[simp] theorem Processor.histWrite_posHalf (e : Reading) : (p.histWrite e).posHalf = p.posHalf := rfl
@[simp] theorem Processor.histWrite_negHalf (e : Reading) : (p.histWrite e).negHalf = p.negHalf := rfl
@[simp] theorem Processor.histWrite_sens (e : Reading) : (p.histWrite e).sens = p.sens := rfl

@[simp] theorem Processor.sensWrite_hist (kind : BitVec 16) (v : Word) : (p.sensWrite kind v).hist = p.hist := rfl
@[simp] theorem Processor.sensWrite_wr (kind : BitVec 16) (v : Word) : (p.sensWrite kind v).wr = p.wr := rfl
@[simp] theorem Processor.sensWrite_nfill (kind : BitVec 16) (v : Word) : (p.sensWrite kind v).nfill = p.nfill := rfl
@[simp] theorem Processor.sensWrite_posPeak (kind : BitVec 16) (v : Word) : (p.sensWrite kind v).posPeak = p.posPeak := rfl
@[simp] theorem Processor.sensWrite_negPeak (kind : BitVec 16) (v : Word) : (p.sensWrite kind v).negPeak = p.negPeak := rfl
@[simp] theorem Processor.sensWrite_lastZc (kind : BitVec 16) (v : Word) : (p.sensWrite kind v).lastZc = p.lastZc := rfl
@[simp] theorem Processor.sensWrite_posHalf (kind : BitVec 16) (v : Word) : (p.sensWrite kind v).posHalf = p.posHalf := rfl
@[simp] theorem Processor.sensWrite_negHalf (kind : BitVec 16) (v : Word) : (p.sensWrite kind v).negHalf = p.negHalf := rfl
@[simp] theorem Processor.sensWrite_sens (kind : BitVec 16) (v : Word) : (p.sensWrite kind v).sens = p.sens.set kind.toNat v := rfl

@[simp] theorem Processor.setHalf_hist (b : Bool) (h : F64) : (p.setHalf b h).hist = p.hist := rfl
@[simp] theorem Processor.setHalf_wr (b : Bool) (h : F64) : (p.setHalf b h).wr = p.wr := rfl
@[simp] theorem Processor.setHalf_nfill (b : Bool) (h : F64) : (p.setHalf b h).nfill = p.nfill := rfl
@[simp] theorem Processor.setHalf_posPeak (b : Bool) (h : F64) : (p.setHalf b h).posPeak = p.posPeak := rfl
@[simp] theorem Processor.setHalf_negPeak (b : Bool) (h : F64) : (p.setHalf b h).negPeak = p.negPeak := rfl
@[simp] theorem Processor.setHalf_lastZc (b : Bool) (h : F64) : (p.setHalf b h).lastZc = p.lastZc := rfl
@[simp] theorem Processor.setHalf_posHalf (b : Bool) (h : F64) : (p.setHalf b h).posHalf = if b then h else p.posHalf := rfl
@[simp] theorem Processor.setHalf_negHalf (b : Bool) (h : F64) : (p.setHalf b h).negHalf = if b then p.negHalf else h := rfl
@[simp] theorem Processor.setHalf_sens (b : Bool) (h : F64) : (p.setHalf b h).sens = p.sens := rfl

@[simp] theorem Processor.setCrossing_hist (e : Reading) (b : Bool) : (p.setCrossing e b).hist = p.hist := rfl
@[simp] theorem Processor.setCrossing_wr (e : Reading) (b : Bool) : (p.setCrossing e b).wr = p.wr := rfl
@[simp] theorem Processor.setCrossing_nfill (e : Reading) (b : Bool) : (p.setCrossing e b).nfill = p.nfill := rfl
@[simp] theorem Processor.setCrossing_posPeak (e : Reading) (b : Bool) : (p.setCrossing e b).posPeak = p.posPeak := rfl
@[simp] theorem Processor.setCrossing_negPeak (e : Reading) (b : Bool) : (p.setCrossing e b).negPeak = p.negPeak := rfl
@[simp] theorem Processor.setCrossing_lastZc (e : Reading) (b : Bool) : (p.setCrossing e b).lastZc = ⟨true, e.total, b⟩ := rfl
@[simp] theorem Processor.setCrossing_posHalf (e : Reading) (b : Bool) : (p.setCrossing e b).posHalf = p.posHalf := rfl
@[simp] theorem Processor.setCrossing_negHalf (e : Reading) (b : Bool) : (p.setCrossing e b).negHalf = p.negHalf := rfl
@[simp] theorem Processor.setCrossing_sens (e : Reading) (b : Bool) : (p.setCrossing e b).sens = p.sens := rfl

/-- The output stream of two emissions is one emission of both lists. -/
@[simp] theorem State.emit_emit (a b : List Event) : (s.emit a).emit b = s.emit (a ++ b) := by
  simp [State.emit, List.append_assoc]

@[simp] theorem State.emit_nil : s.emit [] = s := by simp [State.emit]

@[simp] theorem State.withDec_emit (d : Decoder) (es : List Event) : (s.emit es).withDec d = (s.withDec d).emit es := rfl

/-- While the link is up nothing is held. -/
theorem State.holds_connected (h : s.dec.link = .connected) (t : Transaction) : s.holds t = false := by
  simp [State.holds, h]

/-- While the link is up the block consumes the head of the port. -/
theorem State.consume_connected (h : s.dec.link = .connected) : s.consume = { s with port := s.port.tail } := by
  have : ∀ l : List Transaction, l.eraseP (fun t => !s.holds t) = l.tail := by
    intro l; cases l <;> simp [State.holds_connected s h]
  simp [State.consume, this]

/-- A serial transaction over a link that is down changes nothing. -/
theorem State.serial_disconnected (run : State → Host.Outcome State Fault Refusal) (h : s.dec.link = .disconnected) :
    s.serial run = .next s := by simp [State.serial, h]

/-- A serial transaction over a link that is up runs on the state that has consumed it. -/
theorem State.serial_connected (run : State → Host.Outcome State Fault Refusal) (h : s.dec.link = .connected) :
    s.serial run = run s.consume := by simp [State.serial, h]

end Sys2Proof.Machine
end

