-- ==== Sys2Proof/Laws/Ring.lean ====
section
/-! SUPPORT. What the history ring does (20_memory.md R52 to R54): reads inside and outside the filled part, a read after a write,
and the canonical form that a write keeps. -/

namespace Sys2Proof.Machine

variable (p : Processor) (e : Reading)

theorem Processor.histRead_ok {k : Nat} (h1 : 1 ≤ k) (h2 : k ≤ p.nfill) :
    p.histRead k = .ok (p.hist[(p.wr.val + Config.histN - k) % Config.histN]'(Nat.mod_lt _ (by decide))) := by
  simp [Processor.histRead, h1, h2]

theorem Processor.histRead_unfilled {k : Nat} (h : p.nfill < k) : p.histRead k = .error (.histUnfilled k) := by
  simp [Processor.histRead]; omega

/-- The latest entry is the one just written. -/
@[simp] theorem Processor.histRead_one_histWrite : (p.histWrite e).histRead 1 = .ok e := by
  have hw := p.wr.isLt
  rw [Processor.histRead_ok _ (le_refl 1) (by simp)]
  have : ((p.wr.val + 1) % Config.histN + Config.histN - 1) % Config.histN = p.wr.val := by
    simp only [Config.histN] at *; omega
  simp only [Processor.histWrite_hist, Processor.histWrite_wr, this, Vector.getElem_set_self]

/-- A write shifts every older entry by one, until the ring overwrites it. -/
theorem Processor.histRead_succ_histWrite {k : Nat} (h1 : 1 ≤ k) (h2 : k < Config.histN) (h3 : k ≤ p.nfill) :
    (p.histWrite e).histRead (k + 1) = p.histRead k := by
  have hw := p.wr.isLt
  rw [Processor.histRead_ok _ (by omega) (by simp; omega), Processor.histRead_ok _ h1 h3]
  have h : ((p.wr.val + 1) % Config.histN + Config.histN - (k + 1)) % Config.histN =
      (p.wr.val + Config.histN - k) % Config.histN := by
    simp only [Config.histN] at *; omega
  have hne : p.wr.val ≠ (p.wr.val + Config.histN - k) % Config.histN := by
    simp only [Config.histN] at *; omega
  simp [h, hne]

/-- A write keeps the canonical form of the ring. -/
theorem Processor.ringInv_histWrite (h : p.ringInv) : (p.histWrite e).ringInv := by
  obtain ⟨h1, h2⟩ := h
  refine ⟨by simp, fun h => ?_⟩
  have hn : p.nfill + 1 < Config.histN := by simp at h ⊢; omega
  have := h2 (by omega)
  simp only [Processor.histWrite_wr, Processor.histWrite_nfill, this]
  rw [Nat.mod_eq_of_lt hn]; omega

/-- A SENSOR write keeps the number of entries of the bank. -/
@[simp] theorem Processor.sensWrite_length (kind : BitVec 16) (v : Word) :
    (p.sensWrite kind v).sens.length = p.sens.length := by simp

/-- A value just written is read back. -/
theorem Processor.sensWrite_same (kind : BitVec 16) (v : Word) (h : p.hasKind kind = true) :
    (p.sensWrite kind v).sens[kind.toNat]? = some v := by
  simp [Processor.hasKind] at h; simp [h]

/-- A write leaves every other kind alone. -/
theorem Processor.sensWrite_other (kind : BitVec 16) (v : Word) (k : Nat) (h : k ≠ kind.toNat) :
    (p.sensWrite kind v).sens[k]? = p.sens[k]? := by simp [List.getElem?_set_ne (Ne.symm h)]

end Sys2Proof.Machine
end

