-- ==== Sys2Proof/Laws/AddReading.lean ====
section
/-! SUPPORT. What AddReading does (41_signal_processor.md R151): its result in one equation, what of the processor each part
touches, and that it answers wherever the stored binary64 values are bounded (93_implementation_defined.md I15). -/

namespace Sys2Proof.Machine

variable (p : Processor)

/-- A crossing or a half-period leaves what HistRead sees. -/
@[simp] theorem Processor.setHalf_histRead (b : Bool) (h : F64) (k : Nat) : (p.setHalf b h).histRead k = p.histRead k := rfl
@[simp] theorem Processor.setCrossing_histRead (cur : Reading) (b : Bool) (k : Nat) :
    (p.setCrossing cur b).histRead k = p.histRead k := rfl

theorem Processor.floatBounds_setHalf {p : Processor} (b : Bool) {half : F64} (hp : p.floatBounds) (hh : f64Bounded half) :
    (p.setHalf b half).floatBounds := by
  obtain ⟨h1, h2, h3, h4⟩ := hp
  cases b
  · exact ⟨h1, hh, h3, h4⟩
  · exact ⟨hh, h2, h3, h4⟩

/-- A crossing is always accepted with the half-period there is: the difference of two s64 times cannot leave the range of
`rne`. -/
theorem Processor.acceptCrossing_eq (cur : Reading) (b : Bool) :
    ∃ half, halfPeriod (timeOf cur - asS64 p.lastZc.time) = .ok half ∧ f64Bounded half ∧
      p.acceptCrossing cur b = .ok ((if p.lastZc.valid then p.setHalf b half else p).setCrossing cur b) := by
  obtain ⟨half, h1, h2⟩ := halfPeriod_ok cur.total p.lastZc.time
  refine ⟨half, h1, h2, ?_⟩
  unfold Processor.acceptCrossing
  split
  · rw [timeOf, h1]; rfl
  · rfl

/-- Either the crossing is accepted, or the processor is as it was. -/
theorem Processor.crossBetween_cases (prev cur : Reading) :
    (∃ b half, crossingOf prev cur = some b ∧ p.debounced (timeOf cur) = false ∧
      halfPeriod (timeOf cur - asS64 p.lastZc.time) = .ok half ∧ f64Bounded half ∧
      p.crossBetween prev cur = .ok ((if p.lastZc.valid then p.setHalf b half else p).setCrossing cur b, some b)) ∨
    ((crossingOf prev cur = none ∨ p.debounced (timeOf cur) = true) ∧ p.crossBetween prev cur = .ok (p, none)) := by
  unfold Processor.crossBetween
  cases hc : crossingOf prev cur with
  | none => exact .inr ⟨.inl rfl, rfl⟩
  | some b =>
    cases hd : p.debounced (timeOf cur) with
    | false =>
      obtain ⟨half, h1, h2, h3⟩ := p.acceptCrossing_eq cur b
      exact .inl ⟨b, half, rfl, rfl, h1, h2, by simp only [h3, Bool.false_eq_true, if_false]; rfl⟩
    | true => exact .inr ⟨.inr rfl, by simp⟩

/-- The crossing test answers, and it touches the crossing and the half-periods only. -/
theorem Processor.crossBetween_ok (prev cur : Reading) : ∃ q a, p.crossBetween prev cur = .ok (q, a) ∧
    q.hist = p.hist ∧ q.wr = p.wr ∧ q.nfill = p.nfill ∧ q.posPeak = p.posPeak ∧ q.negPeak = p.negPeak ∧ q.sens = p.sens ∧
      (∀ k, q.histRead k = p.histRead k) ∧ (p.floatBounds → q.floatBounds) := by
  rcases p.crossBetween_cases prev cur with ⟨b, half, -, -, -, hb, h⟩ | ⟨-, h⟩
  · refine ⟨_, _, h, ?_⟩
    cases p.lastZc.valid
    · exact ⟨rfl, rfl, rfl, rfl, rfl, rfl, fun _ => rfl, id⟩
    · exact ⟨rfl, rfl, rfl, rfl, rfl, rfl, fun _ => rfl, fun hp => Processor.floatBounds_setHalf b hp hb⟩
  · exact ⟨_, _, h, rfl, rfl, rfl, rfl, rfl, rfl, fun _ => rfl, id⟩

/-- A peak window stores at most one peak, whose position is bounded; nothing else of the processor changes. -/
theorem Processor.peakWindow_cases (e1 e2 e3 : Reading) :
    (∃ v, fit Config.interpArith (timeOf e1) (angle e1) (timeOf e2) (angle e2) (timeOf e3) (angle e3 + Config.peakBias) =
        some v ∧ positiveWindow (angle e1) (angle e2) (angle e3) = true ∧ f64Bounded (roundNearest v.value) ∧
        p.peakWindow e1 e2 e3 =
          .ok { p with posPeak := ⟨true, wrap64 (truncRat v.time), roundNearest v.value⟩ }) ∨
    (∃ v, fit Config.interpArith (timeOf e1) (angle e1 + Config.peakBias) (timeOf e2) (angle e2 + Config.peakBias)
        (timeOf e3) (angle e3) = some v ∧ negativeWindow (angle e1) (angle e2) (angle e3) = true ∧
        f64Bounded (roundNearest v.value) ∧
        p.peakWindow e1 e2 e3 =
          .ok { p with negPeak := ⟨true, wrap64 (truncRat v.time), roundNearest v.value⟩ }) ∨
    p.peakWindow e1 e2 e3 = .ok p := by
  unfold Processor.peakWindow
  cases hp : positiveWindow (angle e1) (angle e2) (angle e3) with
  | true =>
    cases hf : fit Config.interpArith (timeOf e1) (angle e1) (timeOf e2) (angle e2) (timeOf e3)
        (angle e3 + Config.peakBias) with
    | some v =>
      obtain ⟨h1, h2⟩ := Vertex.toPeak_ok (b := 0) (e := e2) le_rfl (by decide) (by rw [add_zero]; exact hf)
      exact .inl ⟨v, rfl, rfl, h2, by simp only [hf, h1, if_true]; rfl⟩
    | none => exact .inr (.inr (by simp [hf]))
  | false =>
    cases hn : negativeWindow (angle e1) (angle e2) (angle e3) with
    | false => exact .inr (.inr (by simp))
    | true =>
      cases hf : fit Config.interpArith (timeOf e1) (angle e1 + Config.peakBias) (timeOf e2)
          (angle e2 + Config.peakBias) (timeOf e3) (angle e3) with
      | some v =>
        obtain ⟨h1, h2⟩ := Vertex.toPeak_ok (b := 2) (e := e2) (by decide) le_rfl hf
        exact .inr (.inl ⟨v, rfl, rfl, h2, by simp only [hf, h1, Bool.false_eq_true, if_false, if_true]; rfl⟩)
      | none => exact .inr (.inr (by simp [hf]))

/-- The peak test answers, and it touches the peaks only. -/
theorem Processor.peakWindow_ok (e1 e2 e3 : Reading) : ∃ q, p.peakWindow e1 e2 e3 = .ok q ∧
    q.hist = p.hist ∧ q.wr = p.wr ∧ q.nfill = p.nfill ∧ q.lastZc = p.lastZc ∧ q.posHalf = p.posHalf ∧
      q.negHalf = p.negHalf ∧ q.sens = p.sens ∧ (∀ k, q.histRead k = p.histRead k) ∧ (p.floatBounds → q.floatBounds) := by
  rcases p.peakWindow_cases e1 e2 e3 with ⟨v, -, -, hb, h⟩ | ⟨v, -, -, hb, h⟩ | h
  · exact ⟨_, h, rfl, rfl, rfl, rfl, rfl, rfl, rfl, fun _ => rfl, fun hp => ⟨hp.1, hp.2.1, hb, hp.2.2.2⟩⟩
  · exact ⟨_, h, rfl, rfl, rfl, rfl, rfl, rfl, rfl, fun _ => rfl, fun hp => ⟨hp.1, hp.2.1, hp.2.2.1, hb⟩⟩
  · exact ⟨_, h, rfl, rfl, rfl, rfl, rfl, rfl, rfl, fun _ => rfl, id⟩

/-- CROSSING with the reads it makes. -/
theorem Processor.crossing_few (h : p.nfill < 2) : p.crossing = .ok (p, none) := by simp [Processor.crossing, h]

theorem Processor.crossing_reads {prev cur : Reading} (h : 2 ≤ p.nfill) (h2 : p.histRead 2 = .ok prev)
    (h1 : p.histRead 1 = .ok cur) : p.crossing = p.crossBetween prev cur := by
  simp [Processor.crossing, h2, h1]; omega

/-- PEAK with the reads it makes. -/
theorem Processor.peak_few (h : p.nfill < 3) : p.peak = .ok p := by simp [Processor.peak, h]

theorem Processor.peak_reads {e1 e2 e3 : Reading} (h : 3 ≤ p.nfill) (h3 : p.histRead 3 = .ok e1)
    (h2 : p.histRead 2 = .ok e2) (h1 : p.histRead 1 = .ok e3) : p.peak = p.peakWindow e1 e2 e3 := by
  simp [Processor.peak, h3, h2, h1]; omega

/-- The first reading: no crossing test, no peak test, no record (41_signal_processor.md R169). -/
theorem Processor.addReading_first (factor : Int) (r : Reading) (tare : Word) (h : p.nfill = 0) :
    p.addReading factor r tare = .ok (p.histWrite ⟨r.total, tareAdjusted factor r.count tare, r.drift⟩, []) := by
  rw [Processor.addReading, Processor.crossing_few _ (by simp [h])]
  simp [Processor.peak_few, h, Processor.cycleEvents, Except.map]

/-- The second reading: a crossing test, no peak test (41_signal_processor.md R169). -/
theorem Processor.addReading_second (factor : Int) (r : Reading) (tare : Word) (h : p.nfill = 1) {prev cur : Reading}
    (hc : cur = ⟨r.total, tareAdjusted factor r.count tare, r.drift⟩) (h1 : p.histRead 1 = .ok prev) :
    ∃ q a, (p.histWrite cur).crossBetween prev cur = .ok (q, a) ∧
      p.addReading factor r tare = (q.cycleEvents a r).map fun events => (q, events) := by
  subst hc
  have h2 : ∀ e, (p.histWrite e).histRead 2 = .ok prev := fun e => by
    rw [p.histRead_succ_histWrite e (le_refl 1) (by decide) (by omega), h1]
  obtain ⟨q, a, hq, -, -, hn, -⟩ := (p.histWrite ⟨r.total, tareAdjusted factor r.count tare, r.drift⟩).crossBetween_ok prev
    ⟨r.total, tareAdjusted factor r.count tare, r.drift⟩
  refine ⟨q, a, hq, ?_⟩
  rw [Processor.addReading,
    Processor.crossing_reads _ (by simp [h, Config.histN]) (h2 _) (Processor.histRead_one_histWrite _ _), hq]
  simp only
  rw [Processor.peak_few _ (by rw [hn]; simp [h])]

/-- From the third reading on: the crossing test, the peak test and the record, in that order (41_signal_processor.md R151). -/
theorem Processor.addReading_later (factor : Int) (r : Reading) (tare : Word) (h : 2 ≤ p.nfill) {e1 e2 cur : Reading}
    (hc : cur = ⟨r.total, tareAdjusted factor r.count tare, r.drift⟩) (h2 : p.histRead 2 = .ok e1)
    (h1 : p.histRead 1 = .ok e2) :
    ∃ c a q, (p.histWrite cur).crossBetween e2 cur = .ok (c, a) ∧ c.peakWindow e1 e2 cur = .ok q ∧
      p.addReading factor r tare = (q.cycleEvents a r).map fun events => (q, events) := by
  have k2 : ∀ e, (p.histWrite e).histRead 2 = .ok e2 := fun e => by
    rw [p.histRead_succ_histWrite e (le_refl 1) (by decide) (by omega), h1]
  have k3 : ∀ e, (p.histWrite e).histRead 3 = .ok e1 := fun e => by
    rw [p.histRead_succ_histWrite e (by omega : 1 ≤ 2) (by decide) (by omega), h2]
  have hn : ∀ e, 3 ≤ (p.histWrite e).nfill := fun e => by
    simp only [Processor.histWrite_nfill, Config.histN]; omega
  obtain ⟨c, a, hq, -, -, hf, -, -, -, hr, -⟩ := (p.histWrite cur).crossBetween_ok e2 cur
  obtain ⟨q, hw, -⟩ := c.peakWindow_ok e1 e2 cur
  refine ⟨c, a, q, hq, hw, ?_⟩
  rw [Processor.addReading, ← hc,
    Processor.crossing_reads _ (by have := hn cur; omega) (k2 _) (Processor.histRead_one_histWrite _ _), hq]
  simp only
  rw [Processor.peak_reads _ (by rw [hf]; exact hn _) (by rw [hr]; exact k3 _) (by rw [hr]; exact k2 _)
    (by rw [hr]; exact Processor.histRead_one_histWrite _ _), hw]

/-- Every read of the filled part answers. -/
theorem Processor.histRead_some {k : Nat} (h1 : 1 ≤ k) (h2 : k ≤ p.nfill) : ∃ e, p.histRead k = .ok e :=
  ⟨_, p.histRead_ok h1 h2⟩

/-- AddReading in one of its three forms. -/
theorem Processor.addReading_cases (factor : Int) (r : Reading) (tare : Word) :
    ∃ (cur : Reading), cur = ⟨r.total, tareAdjusted factor r.count tare, r.drift⟩ ∧
    ((p.nfill = 0 ∧ p.addReading factor r tare = .ok (p.histWrite cur, [])) ∨
     (∃ prev q a, p.nfill = 1 ∧ p.histRead 1 = .ok prev ∧ (p.histWrite cur).crossBetween prev cur = .ok (q, a) ∧
        p.addReading factor r tare = (q.cycleEvents a r).map fun events => (q, events)) ∨
     (∃ e1 e2 c a q, 2 ≤ p.nfill ∧ p.histRead 2 = .ok e1 ∧ p.histRead 1 = .ok e2 ∧
        (p.histWrite cur).crossBetween e2 cur = .ok (c, a) ∧ c.peakWindow e1 e2 cur = .ok q ∧
        p.addReading factor r tare = (q.cycleEvents a r).map fun events => (q, events))) := by
  refine ⟨_, rfl, ?_⟩
  rcases Nat.lt_or_ge p.nfill 2 with h | h
  · rcases Nat.eq_zero_or_pos p.nfill with h0 | h0
    · exact .inl ⟨h0, p.addReading_first factor r tare h0⟩
    · obtain ⟨prev, hp⟩ := p.histRead_some (le_refl 1) h0
      obtain ⟨q, a, h1, h2⟩ := p.addReading_second factor r tare (by omega) rfl hp
      exact .inr (.inl ⟨prev, q, a, by omega, hp, h1, h2⟩)
  · obtain ⟨e2, h1⟩ := p.histRead_some (le_refl 1) (by omega)
    obtain ⟨e1, h2⟩ := p.histRead_some (by omega : 1 ≤ 2) h
    obtain ⟨c, a, q, h3, h4, h5⟩ := p.addReading_later factor r tare h rfl h2 h1
    exact .inr (.inr ⟨e1, e2, c, a, q, h, h2, h1, h3, h4, h5⟩)

/-! ## The record -/

/-- Everything the record step can emit: nothing, or one CYCLE with the amplitude and the period. -/
theorem Processor.cycleEvents_spec {a : Option Bool} {r : Reading} {evs : List Event} (h : p.cycleEvents a r = .ok evs) :
    evs = [] ∨ ∃ amplitude period, f64Sub p.posPeak.position p.negPeak.position = .ok amplitude ∧
      f64Add p.posHalf p.negHalf = .ok period ∧ evs = [.cycle r.total r.drift amplitude period p.sens] := by
  unfold Processor.cycleEvents Processor.cycleEvent at h
  split at h
  · cases h; exact .inl rfl
  · split at h
    · cases h1 : f64Sub p.posPeak.position p.negPeak.position with
      | error f => rw [h1] at h; cases h
      | ok amplitude =>
        cases h2 : f64Add p.posHalf p.negHalf with
        | error f => rw [h1, h2] at h; cases h
        | ok period => rw [h1, h2] at h; cases h; exact .inr ⟨amplitude, period, rfl, rfl, rfl⟩
    · cases h; exact .inl rfl

/-- The record step answers wherever the stored values are bounded. -/
theorem Processor.cycleEvents_ok (a : Option Bool) (r : Reading) (h : p.floatBounds) : ∃ evs, p.cycleEvents a r = .ok evs := by
  obtain ⟨amplitude, h1⟩ := f64Sub_ok h.2.2.1 h.2.2.2
  obtain ⟨period, h2⟩ := f64Add_ok h.1 h.2.1
  unfold Processor.cycleEvents Processor.cycleEvent
  rw [h1, h2]
  cases a
  · exact ⟨_, rfl⟩
  · simp only; split <;> exact ⟨_, rfl⟩

/-- The one way the record step faults. -/
theorem Processor.cycleEvents_error {a : Option Bool} {r : Reading} {f : Fault} (h : p.cycleEvents a r = .error f) :
    f = .rneOutOfRange := by
  unfold Processor.cycleEvents Processor.cycleEvent at h
  split at h
  · cases h
  · split at h
    · cases h1 : f64Sub p.posPeak.position p.negPeak.position with
      | error g => rw [h1] at h; cases h; exact f64Sub_error h1
      | ok amplitude =>
        cases h2 : f64Add p.posHalf p.negHalf with
        | error g => rw [h1, h2] at h; cases h; exact f64Add_error h2
        | ok period => rw [h1, h2] at h; cases h
    · cases h

/-! ## AddReading -/

/-- AddReading up to the record: the ring written, the bank as it was, the stored values bounded if they were. -/
theorem Processor.addReading_shape (factor : Int) (r : Reading) (tare : Word) :
    ∃ (q : Processor) (a : Option Bool), p.addReading factor r tare = (q.cycleEvents a r).map (fun events => (q, events)) ∧
      q.hist = (p.histWrite ⟨r.total, tareAdjusted factor r.count tare, r.drift⟩).hist ∧
      q.wr = (p.histWrite ⟨r.total, tareAdjusted factor r.count tare, r.drift⟩).wr ∧
      q.nfill = min Config.histN (p.nfill + 1) ∧ q.sens = p.sens ∧
      (∀ k, q.histRead k = (p.histWrite ⟨r.total, tareAdjusted factor r.count tare, r.drift⟩).histRead k) ∧
      (p.floatBounds → q.floatBounds) := by
  obtain ⟨cur, rfl, ⟨-, h⟩ | ⟨prev, q, a, -, -, hc, h⟩ | ⟨e1, e2, c, a, q, -, -, -, hc, hw, h⟩⟩ :=
    p.addReading_cases factor r tare
  · exact ⟨_, none, h, rfl, rfl, rfl, rfl, fun _ => rfl, id⟩
  · obtain ⟨q', a', hc', k1, k2, k3, -, -, k6, k7, k8⟩ :=
      (p.histWrite ⟨r.total, tareAdjusted factor r.count tare, r.drift⟩).crossBetween_ok prev
        ⟨r.total, tareAdjusted factor r.count tare, r.drift⟩
    rw [hc] at hc'; cases hc'
    exact ⟨_, _, h, k1, k2, k3, k6, k7, k8⟩
  · obtain ⟨q', a', hc', k1, k2, k3, -, -, k6, k7, k8⟩ :=
      (p.histWrite ⟨r.total, tareAdjusted factor r.count tare, r.drift⟩).crossBetween_ok e2
        ⟨r.total, tareAdjusted factor r.count tare, r.drift⟩
    rw [hc] at hc'; cases hc'
    obtain ⟨q', hw', w1, w2, w3, -, -, -, w7, w8, w9⟩ := c.peakWindow_ok e1 e2
      ⟨r.total, tareAdjusted factor r.count tare, r.drift⟩
    rw [hw] at hw'; cases hw'
    exact ⟨_, _, h, w1.trans k1, w2.trans k2, w3.trans k3, w7.trans k6, fun n => (w8 n).trans (k7 n), w9 ∘ k8⟩

/-- Everything AddReading can do to the processor where it answers: it writes the ring, it leaves the bank, it keeps the bounds, it
emits at most a CYCLE. -/
theorem Processor.addReading_spec {factor : Int} {r : Reading} {tare : Word} {q : Processor} {evs : List Event}
    (h : p.addReading factor r tare = .ok (q, evs)) :
    q.hist = (p.histWrite ⟨r.total, tareAdjusted factor r.count tare, r.drift⟩).hist ∧
      q.wr = (p.histWrite ⟨r.total, tareAdjusted factor r.count tare, r.drift⟩).wr ∧
      q.nfill = min Config.histN (p.nfill + 1) ∧ q.sens = p.sens ∧
      (∀ k, q.histRead k = (p.histWrite ⟨r.total, tareAdjusted factor r.count tare, r.drift⟩).histRead k) ∧
      (p.floatBounds → q.floatBounds) ∧
      (evs = [] ∨ ∃ amplitude period, f64Sub q.posPeak.position q.negPeak.position = .ok amplitude ∧
        f64Add q.posHalf q.negHalf = .ok period ∧ evs = [.cycle r.total r.drift amplitude period q.sens]) := by
  obtain ⟨q', a, h', k1, k2, k3, k4, k5, k6⟩ := p.addReading_shape factor r tare
  rw [h'] at h
  cases he : q'.cycleEvents a r with
  | error f => rw [he] at h; cases h
  | ok evs' => rw [he] at h; cases h; exact ⟨k1, k2, k3, k4, k5, k6, q.cycleEvents_spec he⟩

/-- AddReading answers wherever the stored values are bounded. -/
theorem Processor.addReading_ok (factor : Int) (r : Reading) (tare : Word) (h : p.floatBounds) :
    ∃ q evs, p.addReading factor r tare = .ok (q, evs) := by
  obtain ⟨q, a, h', -, -, -, -, -, hb⟩ := p.addReading_shape factor r tare
  obtain ⟨evs, he⟩ := q.cycleEvents_ok a r (hb h)
  exact ⟨q, evs, by rw [h', he]; rfl⟩

/-- The one way AddReading faults; its reads of the ring answer in every state. -/
theorem Processor.addReading_error {factor : Int} {r : Reading} {tare : Word} {f : Fault}
    (h : p.addReading factor r tare = .error f) : f = .rneOutOfRange := by
  obtain ⟨q, a, h', -⟩ := p.addReading_shape factor r tare
  rw [h'] at h
  cases he : q.cycleEvents a r with
  | error g => rw [he] at h; cases h; exact q.cycleEvents_error he
  | ok evs => rw [he] at h; cases h

/-- Everything AddReading on the block can answer: the processor replaced and its events emitted, or the fault. -/
theorem State.addReading_eq (s : State) (r : Reading) (tare : Word) :
    (∃ q evs, s.sp.addReading s.tareFactor r tare = .ok (q, evs) ∧ s.addReading r tare = .next ((s.withSp q).emit evs)) ∨
      s.addReading r tare = .fault .rneOutOfRange := by
  unfold State.addReading
  cases h : s.sp.addReading s.tareFactor r tare with
  | error f => exact .inr (by rw [s.sp.addReading_error h])
  | ok c => exact .inl ⟨c.1, c.2, rfl, rfl⟩

/-- It answers a next state wherever the stored values are bounded. -/
theorem State.addReading_next (s : State) (r : Reading) (tare : Word) (hb : s.sp.floatBounds) :
    ∃ q evs, s.sp.addReading s.tareFactor r tare = .ok (q, evs) ∧
      s.addReading r tare = .next ((s.withSp q).emit evs) := by
  obtain ⟨q, evs, h⟩ := s.sp.addReading_ok s.tareFactor r tare hb
  exact ⟨q, evs, h, by simp [State.addReading, h]⟩

end Sys2Proof.Machine
end

