-- ==== Sys2Proof/Laws/Decoder.lean ====
section
/-! SUPPORT. What the decoder's operations do, in 32- and 64-bit arithmetic: the wraps of 00_scope.md R11 as BitVec operations,
the cumulative time, the Reading of a frame, and the whole decoder after an accepted frame (40_frame_decoder.md R114 to R125). -/

namespace Sys2Proof.Machine

/-- Wrapping a sum or a difference of signed or unsigned readings is the 64-bit operation. -/
theorem wrap64_add (a b : Word) : wrap64 (asS64 a + asS64 b) = a + b := by
  rw [wrap64, asS64, asS64, BitVec.ofInt_add, BitVec.ofInt_toInt, BitVec.ofInt_toInt]

theorem wrap64_neg_toInt (b : Word) : BitVec.ofInt 64 (-b.toInt) = -b := by
  rw [BitVec.ofInt_neg, BitVec.ofInt_toInt]

theorem wrap64_sub (a b : Word) : wrap64 (asS64 a - asS64 b) = a - b := by
  rw [wrap64, asS64, asS64, Int.sub_eq_add_neg, BitVec.ofInt_add, wrap64_neg_toInt, BitVec.ofInt_toInt, BitVec.sub_eq_add_neg]

theorem ofInt_asU64 (a : Word) : BitVec.ofInt 64 (asU64 a) = a := by
  rw [asU64, Int.ofNat_eq_natCast, BitVec.ofInt_natCast, BitVec.ofNat_toNat, BitVec.setWidth_eq]

theorem wrap64_sub_unsigned (a b : Word) : wrap64 (asU64 a - asU64 b) = a - b := by
  rw [wrap64, Int.sub_eq_add_neg, BitVec.ofInt_add, BitVec.ofInt_neg, ofInt_asU64, ofInt_asU64, BitVec.sub_eq_add_neg]

theorem wrap64_sub_mixed (a b : Word) : wrap64 (asS64 a - asU64 b) = a - b := by
  rw [wrap64, asS64, Int.sub_eq_add_neg, BitVec.ofInt_add, BitVec.ofInt_neg, BitVec.ofInt_toInt, ofInt_asU64,
    BitVec.sub_eq_add_neg]

/-- The cumulative time is the wrap count above the timestamp. -/
theorem toNat_append_stamp (ovf ts : Stamp) : (ovf ++ ts : BitVec 64).toNat = ovf.toNat * 2 ^ 32 + ts.toNat := by
  have h : (ovf ++ ts : BitVec (32 + 32)).toNat = ovf.toNat * 2 ^ 32 + ts.toNat := by
    rw [BitVec.toNat_append, ← Nat.shiftLeft_add_eq_or_of_lt ts.isLt, Nat.shiftLeft_eq]
  exact h

theorem toNat_cumulativeTime (ovf ts : Stamp) : (cumulativeTime ovf ts).toNat = ovf.toNat * 2 ^ 32 + ts.toNat := by
  have h1 := ovf.isLt
  have h2 := ts.isLt
  have hs : ∀ x : Stamp, (x.setWidth 64).toNat = x.toNat := fun x => by
    rw [BitVec.toNat_setWidth]; exact Nat.mod_eq_of_lt (by have := x.isLt; omega)
  have hm : (BitVec.ofNat 64 Config.wrapModulus).toNat = 2 ^ 32 := by decide
  rw [cumulativeTime, BitVec.toNat_add, BitVec.toNat_mul, hs, hs, hm]
  omega

theorem cumulativeTime_eq (ovf ts : Stamp) : cumulativeTime ovf ts = (ovf ++ ts : BitVec 64) :=
  BitVec.eq_of_toNat_eq ((toNat_cumulativeTime ovf ts).trans (toNat_append_stamp ovf ts).symm)

/-- The corrected time: the anchor's arrival and the device time since the anchor. -/
theorem Decoder.corrected_eq (d : Decoder) (ts : Stamp) :
    d.corrected ts = d.epochOffset + ((d.ovfCount ++ ts : BitVec 64) - d.firstDev) := by
  simp only [Decoder.corrected, wrap64_sub_unsigned, wrap64_add, cumulativeTime_eq]

/-- The Reading of an accepted frame. -/
theorem Decoder.reading_eq (d : Decoder) (ts : Stamp) (arrival : Word) :
    d.reading ts arrival = ⟨d.epochOffset + ((d.ovfCount ++ ts : BitVec 64) - d.firstDev), d.position,
      arrival - (d.epochOffset + ((d.ovfCount ++ ts : BitVec 64) - d.firstDev))⟩ := by
  simp only [Decoder.reading, wrap64_sub_mixed, Decoder.corrected_eq]

theorem wrap64_move (p : Word) (dir : Bool) :
    wrap64 (asS64 p + if dir then 1 else -1) = if dir then p + 1 else p - 1 := by
  cases dir
  · exact wrap64_sub p 1
  · exact wrap64_add p 1

theorem Decoder.gapExceeded_eq (d : Decoder) (arrival : Word) :
    d.gapExceeded arrival = decide (60000000 < (arrival - d.lastArrival).toInt) := by
  rw [Decoder.gapExceeded, wrap64_sub]; rfl

/-- The whole decoder after an accepted frame: it resynchronises, or it does not. -/
theorem Decoder.acceptFrame_eq (d : Decoder) (dir : Bool) (ts : Stamp) (arrival : Word) :
    d.acceptFrame dir ts arrival =
      let ovf := if ts.toNat < d.lastTs.toNat then d.ovfCount + 1 else d.ovfCount
      let resync := d.synced && decide (60000000 < (arrival - d.lastArrival).toInt)
      let ovf' := if resync then 0 else ovf
      { lastTs := ts
        ovfCount := ovf'
        position := if dir then d.position + 1 else d.position - 1
        epochOffset := if !d.synced || resync then arrival else d.epochOffset
        firstDev := if !d.synced || resync then ovf' ++ ts else d.firstDev
        lastArrival := arrival
        link := d.link
        errCount := 0
        synced := true } := by
  obtain ⟨lts, ovf, pos, eo, fd, la, li, ec, sy⟩ := d
  simp only [Decoder.acceptFrame, Decoder.clearErrors, Decoder.countWrap, Decoder.wrapped, Decoder.noteTimestamp,
    Decoder.synchronise, Decoder.noteArrival, Decoder.move, Decoder.gapExceeded_eq, wrap64_move, cumulativeTime_eq]
  cases sy <;> by_cases h1 : ts.toNat < lts.toNat <;> by_cases h2 : 60000000 < (arrival - la).toInt <;>
    simp only [h1, h2, decide_true, decide_false, if_true, if_false, Bool.and_true,
      Bool.and_false, Bool.not_true, Bool.not_false, Bool.or_false, Bool.or_true, Bool.false_eq_true, reduceCtorEq]

end Sys2Proof.Machine
end

