-- ==== Sys2Proof/Laws/Exec.lean ====
section
/-! SUPPORT. What the instructions that add a Reading answer, as one next state each, and which transaction a step takes. -/

namespace Sys2Proof.Machine

/-- An accepted data frame over a link that is up runs on the state that has consumed it. -/
theorem exec_dataFrame_connected (dir : Bool) (ts : Stamp) (arrival : Word) (s : State) (h : s.dec.link = .connected) :
    exec (dataFrame dir ts arrival) s = s.consume.acceptFrame dir ts arrival := by
  cases dir <;> simp [dataFrame, exec, execFrameDataPos, execFrameDataNeg, State.serial_connected, h]

/-- Its next state: the decoder that has accepted the frame, the processor after AddReading, the READING before its events; or the
fault of AddReading. -/
theorem exec_dataFrame_eq (dir : Bool) (ts : Stamp) (arrival : Word) (s : State) (h : s.dec.link = .connected) :
    (∃ q evs,
      s.sp.addReading s.tareFactor ((s.dec.acceptFrame dir ts arrival).reading ts arrival) s.tare = .ok (q, evs) ∧
      exec (dataFrame dir ts arrival) s = .next (((s.consume.withDec (s.dec.acceptFrame dir ts arrival)).withSp q).emit
        (.reading ((s.dec.acceptFrame dir ts arrival).reading ts arrival) :: evs))) ∨
      exec (dataFrame dir ts arrival) s = .fault .rneOutOfRange := by
  rw [exec_dataFrame_connected dir ts arrival s h]
  refine (State.addReading_eq
    ((s.consume.withDec (s.dec.acceptFrame dir ts arrival)).emit [.reading ((s.dec.acceptFrame dir ts arrival).reading ts arrival)])
    ((s.dec.acceptFrame dir ts arrival).reading ts arrival) s.tare).imp (fun ⟨q, evs, h1, h2⟩ => ⟨q, evs, h1, ?_⟩) id
  refine Eq.trans h2 ?_
  simp [State.emit, State.withSp, State.withDec]

/-- It completes wherever the stored values are bounded. -/
theorem exec_dataFrame_next (dir : Bool) (ts : Stamp) (arrival : Word) (s : State) (h : s.dec.link = .connected)
    (hb : s.sp.floatBounds) : ∃ q evs,
      s.sp.addReading s.tareFactor ((s.dec.acceptFrame dir ts arrival).reading ts arrival) s.tare = .ok (q, evs) ∧
      exec (dataFrame dir ts arrival) s = .next (((s.consume.withDec (s.dec.acceptFrame dir ts arrival)).withSp q).emit
        (.reading ((s.dec.acceptFrame dir ts arrival).reading ts arrival) :: evs)) := by
  refine (exec_dataFrame_eq dir ts arrival s h).resolve_right fun hf => ?_
  obtain ⟨q, evs, -, h2⟩ := State.addReading_next
    ((s.consume.withDec (s.dec.acceptFrame dir ts arrival)).emit [.reading ((s.dec.acceptFrame dir ts arrival).reading ts arrival)])
    ((s.dec.acceptFrame dir ts arrival).reading ts arrival) s.tare hb
  rw [exec_dataFrame_connected dir ts arrival s h] at hf
  exact absurd (h2.symm.trans hf) (by simp)

/-- SP_ADD's next state: the processor after AddReading and its events; or the fault of AddReading. -/
theorem exec_spAdd_eq (total count drift tare : Word) (s : State) :
    (∃ q evs, s.sp.addReading s.tareFactor ⟨total, count, drift⟩ tare = .ok (q, evs) ∧
      exec (.spAdd total count drift tare) s = .next ((s.consume.withSp q).emit evs)) ∨
      exec (.spAdd total count drift tare) s = .fault .rneOutOfRange :=
  State.addReading_eq s.consume ⟨total, count, drift⟩ tare

/-- It completes wherever the stored values are bounded. -/
theorem exec_spAdd_next (total count drift tare : Word) (s : State) (hb : s.sp.floatBounds) :
    ∃ q evs, s.sp.addReading s.tareFactor ⟨total, count, drift⟩ tare = .ok (q, evs) ∧
      exec (.spAdd total count drift tare) s = .next ((s.consume.withSp q).emit evs) :=
  State.addReading_next s.consume ⟨total, count, drift⟩ tare hb

/-- The opcodes that can be held are those that decode to a serial read. -/
theorem isSerialRead_decode (t : Transaction) : isSerialRead t = (decode t).serialRead := by
  unfold decode decodeFrame isSerialRead
  repeat' split
  all_goals simp_all [Instr.serialRead]

/-- The first presented transaction that is not held is the one a step takes. -/
theorem State.presented_of_split {s : State} {pre post : List Transaction} {t : Transaction} (hp : s.port = pre ++ t :: post)
    (h1 : ∀ u ∈ pre, s.holds u = true) (h2 : s.holds t = false) : s.presented = some t := by
  have hpre : pre.find? (fun t => !s.holds t) = none := by simpa [List.find?_eq_none] using h1
  have : s.port.find? (fun t => !s.holds t) = some t := by
    rw [hp, List.find?_append, hpre]; simp [h2]
  simp [State.presented, this]

/-- Where every presented transaction is held, the step takes the first, which waits. -/
theorem State.presented_all_held {s : State} (h : ∀ u ∈ s.port, s.holds u = true) : s.presented = s.port.head? := by
  have : s.port.find? (fun t => !s.holds t) = none := by simpa [List.find?_eq_none] using h
  simp [State.presented, this]

/-- A read error in one equation: below the limit and at it (40_frame_decoder.md R126, R127). -/
theorem State.readError_eq (s : State) : s.readError =
    (s.withDec { s.dec with
      errCount := s.dec.errCount + 1
      link := if s.dec.errCount + 1 < 10 then s.dec.link else .disconnected }).emit
      (if s.dec.errCount + 1 < 10 then [.status .error false]
        else [.status .error true, .status .disconnected false]) := by
  by_cases h : s.dec.errCount + 1 < 10 <;>
    simp [State.readError, State.breaker, Config.errLimit, h, State.withDec, State.emit]

/-- Everything an instruction can do: if it answers a next state, that state is one of these. -/
theorem exec_cases {i : Instr} {s t : State} (h : exec i s = .next t) :
    (i.serialRead = true ∧ s.dec.link = .disconnected ∧ t = s) ∨
    (i = .connect ∧ t = s.consume.connect) ∨
    (∃ arrival, i = .frameSentinel arrival ∧ s.dec.link = .connected ∧ t = s.consume.emit [.status .overflow false]) ∨
    (∃ frame arrival, i = .frameBadcsum frame arrival ∧ s.dec.link = .connected ∧
      t = (s.consume.withDec s.dec.clearErrors).emit [.diag .csumMismatch]) ∨
    (∃ dir ts arrival q evs, i = dataFrame dir ts arrival ∧ s.dec.link = .connected ∧
      s.sp.addReading s.tareFactor ((s.dec.acceptFrame dir ts arrival).reading ts arrival) s.tare = .ok (q, evs) ∧
      t = ((s.consume.withDec (s.dec.acceptFrame dir ts arrival)).withSp q).emit
        (.reading ((s.dec.acceptFrame dir ts arrival).reading ts arrival) :: evs)) ∨
    (i = .rderr ∧ s.dec.link = .connected ∧ t = s.consume.readError) ∨
    (∃ total count drift tare q evs, i = .spAdd total count drift tare ∧
      s.sp.addReading s.tareFactor ⟨total, count, drift⟩ tare = .ok (q, evs) ∧ t = (s.consume.withSp q).emit evs) ∨
    (∃ kind value, i = .sensor kind value ∧ s.sp.hasKind kind = true ∧
      t = s.consume.withSp (s.sp.sensWrite kind value)) ∨
    (i.classOf s.sp.sens.length = .refused ∧ t = s.refuse ∧
      (i = .reservedZero ∨ (∃ low, i = .reservedHigh low) ∨ ∃ kind value, i = .sensor kind value)) ∨
    (∃ value, i = .tareSet value ∧ t = s.consume.withTare value) ∨
    (i = .tareGet ∧ t = s.consume.emit [.tareValue s.tare]) := by
  have hl : s.dec.link = .disconnected ∨ s.dec.link = .connected := by cases s.dec.link <;> simp
  have data : ∀ dir ts arrival, s.dec.link = .connected → exec (dataFrame dir ts arrival) s = .next t →
      ∃ q evs,
        s.sp.addReading s.tareFactor ((s.dec.acceptFrame dir ts arrival).reading ts arrival) s.tare = .ok (q, evs) ∧
        t = ((s.consume.withDec (s.dec.acceptFrame dir ts arrival)).withSp q).emit
          (.reading ((s.dec.acceptFrame dir ts arrival).reading ts arrival) :: evs) := by
    intro dir ts arrival hc ht
    rcases exec_dataFrame_eq dir ts arrival s hc with ⟨q, evs, h1, h2⟩ | h2
    · rw [h2] at ht; cases ht
      exact ⟨q, evs, h1, rfl⟩
    · rw [h2] at ht; cases ht
  cases i with
  | connect => cases h; exact .inr (.inl ⟨rfl, rfl⟩)
  | frameSentinel arrival =>
    rcases hl with hc | hc
    · rw [exec, execFrameSentinel, State.serial_disconnected _ _ hc] at h; cases h; exact .inl ⟨rfl, hc, rfl⟩
    · rw [exec, execFrameSentinel, State.serial_connected _ _ hc] at h; cases h
      exact .inr (.inr (.inl ⟨arrival, rfl, hc, rfl⟩))
  | frameBadcsum frame arrival =>
    rcases hl with hc | hc
    · rw [exec, execFrameBadcsum, State.serial_disconnected _ _ hc] at h; cases h; exact .inl ⟨rfl, hc, rfl⟩
    · rw [exec, execFrameBadcsum, State.serial_connected _ _ hc] at h; cases h
      exact .inr (.inr (.inr (.inl ⟨frame, arrival, rfl, hc, rfl⟩)))
  | frameDataPos ts arrival =>
    rcases hl with hc | hc
    · rw [exec, execFrameDataPos, State.serial_disconnected _ _ hc] at h; cases h; exact .inl ⟨rfl, hc, rfl⟩
    · obtain ⟨q, evs, h1, h2⟩ := data true ts arrival hc h
      exact .inr (.inr (.inr (.inr (.inl ⟨true, ts, arrival, q, evs, rfl, hc, h1, h2⟩))))
  | frameDataNeg ts arrival =>
    rcases hl with hc | hc
    · rw [exec, execFrameDataNeg, State.serial_disconnected _ _ hc] at h; cases h; exact .inl ⟨rfl, hc, rfl⟩
    · obtain ⟨q, evs, h1, h2⟩ := data false ts arrival hc h
      exact .inr (.inr (.inr (.inr (.inl ⟨false, ts, arrival, q, evs, rfl, hc, h1, h2⟩))))
  | rderr =>
    rcases hl with hc | hc
    · rw [exec, execRderr, State.serial_disconnected _ _ hc] at h; cases h; exact .inl ⟨rfl, hc, rfl⟩
    · rw [exec, execRderr, State.serial_connected _ _ hc] at h; cases h
      exact .inr (.inr (.inr (.inr (.inr (.inl ⟨rfl, hc, rfl⟩)))))
  | spAdd total count drift tare =>
    obtain ⟨q, evs, h1, h2⟩ := (exec_spAdd_eq total count drift tare s).resolve_right fun hf => by rw [hf] at h; cases h
    rw [h2] at h; cases h
    exact .inr (.inr (.inr (.inr (.inr (.inr (.inl ⟨total, count, drift, tare, q, evs, rfl, h1, rfl⟩))))))
  | sensor kind value =>
    cases hk : s.sp.hasKind kind with
    | true =>
      simp only [exec, execSensor, hk, if_true] at h; cases h
      exact .inr (.inr (.inr (.inr (.inr (.inr (.inr (.inl ⟨kind, value, rfl, hk, rfl⟩)))))))
    | false =>
      simp only [exec, execSensor, hk, Bool.false_eq_true, if_false] at h; cases h
      refine .inr (.inr (.inr (.inr (.inr (.inr (.inr (.inr (.inl ⟨?_, rfl, .inr (.inr ⟨kind, value, rfl⟩)⟩))))))))
      simpa [Processor.hasKind, Instr.classOf] using hk
  | tareSet value =>
    cases h; exact .inr (.inr (.inr (.inr (.inr (.inr (.inr (.inr (.inr (.inl ⟨value, rfl, rfl⟩)))))))))
  | tareGet =>
    cases h; exact .inr (.inr (.inr (.inr (.inr (.inr (.inr (.inr (.inr (.inr ⟨rfl, rfl⟩)))))))))
  | reservedZero =>
    cases h; exact .inr (.inr (.inr (.inr (.inr (.inr (.inr (.inr (.inl ⟨rfl, rfl, .inl rfl⟩))))))))
  | reservedHigh low =>
    cases h; exact .inr (.inr (.inr (.inr (.inr (.inr (.inr (.inr (.inl ⟨rfl, rfl, .inr (.inl ⟨low, rfl⟩)⟩))))))))

end Sys2Proof.Machine
end

