-- ==== Sys2Proof/Laws/Frame.lean ====
section
/-! SUPPORT. The bits of a wire frame: each field bit by bit, the frame of a timestamp and a direction bit by bit, and that a frame
is determined by its three fields (30_encoding.md R78, R83, R99). -/

namespace Sys2Proof.Machine

/-- The frame field of a 64-bit operand, whatever stands above it. -/
@[simp] theorem extract_append_frame (high : BitVec 24) (f : Frame) : (high ++ f : BitVec 64).extractLsb' 0 40 = f := by
  refine BitVec.eq_of_getLsbD_eq fun i hi => ?_
  have h : ((high ++ f : BitVec (24 + 40)).getLsbD i) = f.getLsbD i := by
    rw [BitVec.getLsbD_append]; simp [hi]
  rw [BitVec.getLsbD_extractLsb']
  simpa [hi] using h

@[simp] theorem extract_setWidth_frame (f : Frame) : (f.setWidth 64).extractLsb' 0 40 = f := by
  refine BitVec.eq_of_getLsbD_eq fun i hi => ?_
  have : i < 64 := by omega
  simp [hi, this]

@[simp] theorem extract_setWidth_kind (k : BitVec 16) : (k.setWidth 64).extractLsb' 0 16 = k := by
  refine BitVec.eq_of_getLsbD_eq fun i hi => ?_
  have : i < 64 := by omega
  simp [hi, this]

theorem getLsbD_frameByte (f : Frame) (k i : Nat) :
    (frameByte f k).getLsbD i = (decide (i < 8) && f.getLsbD (32 - 8 * k + i)) := by
  simp [frameByte, BitVec.getLsbD_extractLsb']

theorem getLsbD_frameTs (f : Frame) (i : Nat) : (frameTs f).getLsbD i = (decide (i < 32) && f.getLsbD (8 + i)) := by
  simp [frameTs, BitVec.getLsbD_extractLsb']

theorem getLsbD_frameCsum (f : Frame) (i : Nat) : (frameCsum f).getLsbD i = (decide (i < 7) && f.getLsbD i) := by
  simp [frameCsum, BitVec.getLsbD_extractLsb']

theorem getLsbD_checksumOf (b0 b1 b2 b3 : Byte) (i : Nat) : (checksumOf b0 b1 b2 b3).getLsbD i =
    (decide (i < 7) && (((b0.getLsbD i ^^ b1.getLsbD i) ^^ b2.getLsbD i) ^^ b3.getLsbD i)) := by
  simp [checksumOf, BitVec.getLsbD_extractLsb']

/-- Checksum, direction, timestamp, from the low end up. -/
theorem getLsbD_frameOfData (ts : Stamp) (dir : Bool) (i : Nat) : (frameOfData ts dir).getLsbD i =
    if i < 7 then (checksumOf (ts.extractLsb' 24 8) (ts.extractLsb' 16 8) (ts.extractLsb' 8 8)
      (ts.extractLsb' 0 8)).getLsbD i
    else if i = 7 then dir else ts.getLsbD (i - 8) := by
  have h1 : (frameOfData ts dir).getLsbD i = (ts ++ (BitVec.ofBool dir ++ checksumOf (ts.extractLsb' 24 8)
      (ts.extractLsb' 16 8) (ts.extractLsb' 8 8) (ts.extractLsb' 0 8) : BitVec (1 + 7)) : BitVec (32 + (1 + 7))).getLsbD i := rfl
  rw [h1, BitVec.getLsbD_append, BitVec.getLsbD_append]
  rcases Nat.lt_trichotomy i 7 with h | h | h
  · have h8 : i < 1 + 7 := by omega
    simp [h, h8]
  · subst h; simp
  · have h8 : ¬i < 1 + 7 := by omega
    have h7 : ¬i < 7 := by omega
    have hne : i ≠ 7 := by omega
    simp [h7, h8, hne]

/-- A frame is its timestamp, its direction and its checksum field. -/
theorem frame_ext {f g : Frame} (h1 : frameTs f = frameTs g) (h2 : frameDir f = frameDir g)
    (h3 : frameCsum f = frameCsum g) : f = g := by
  refine BitVec.eq_of_getLsbD_eq fun i hi => ?_
  rcases Nat.lt_trichotomy i 7 with h | h | h
  · have := congrArg (fun b => b.getLsbD i) h3
    simpa only [getLsbD_frameCsum, h, decide_true, Bool.true_and] using this
  · subst h; exact h2
  · have := congrArg (fun b => b.getLsbD (i - 8)) h1
    have e : 8 + (i - 8) = i := by omega
    have e2 : i - 8 < 32 := by omega
    simpa only [getLsbD_frameTs, e, e2, decide_true, Bool.true_and] using this

/-- The expected checksum depends on the timestamp only. -/
theorem frameExpected_eq (f : Frame) : frameExpected f = checksumOf ((frameTs f).extractLsb' 24 8)
    ((frameTs f).extractLsb' 16 8) ((frameTs f).extractLsb' 8 8) ((frameTs f).extractLsb' 0 8) := by
  have h : ∀ k < 4, frameByte f k = (frameTs f).extractLsb' (24 - 8 * k) 8 := by
    intro k hk
    refine BitVec.eq_of_getLsbD_eq fun i hi => ?_
    have e : 32 - 8 * k + i = 8 + (24 - 8 * k + i) := by omega
    have e2 : 24 - 8 * k + i < 32 := by omega
    rw [getLsbD_frameByte, BitVec.getLsbD_extractLsb', getLsbD_frameTs]
    simp only [hi, e2, e, decide_true, Bool.true_and]
  simp [frameExpected, h]

end Sys2Proof.Machine
end

