-- ==== Sys2Proof/Laws/PerInstr.lean ====
section
/-! SUPPORT. For every instruction: its encoding carries the `op` of its row of spec/opcode_table.json (30_encoding.md R104). -/

/-- The `op` of the encoded instruction, under the mask of its row, is the row's match. -/
def Sys2Proof.Laws.OpcodeRow.Statement (i : Sys2Proof.Instr) : Prop :=
  (Sys2Proof.encode i).op &&& i.opMatchMask.2 = i.opMatchMask.1

theorem Sys2Proof.Laws.OpcodeRow.reservedZero : Sys2Proof.Laws.OpcodeRow.Statement .reservedZero :=
  (by decide : (0x0#4 &&& 0xF#4) = 0x0#4)
theorem Sys2Proof.Laws.OpcodeRow.connect : Sys2Proof.Laws.OpcodeRow.Statement .connect :=
  (by decide : (0x1#4 &&& 0xF#4) = 0x1#4)
theorem Sys2Proof.Laws.OpcodeRow.frameSentinel (arrival : Sys2Proof.Word) :
    Sys2Proof.Laws.OpcodeRow.Statement (.frameSentinel arrival) :=
  (by decide : (0x2#4 &&& 0xF#4) = 0x2#4)
theorem Sys2Proof.Laws.OpcodeRow.frameBadcsum (frame : Sys2Proof.Frame) (arrival : Sys2Proof.Word) :
    Sys2Proof.Laws.OpcodeRow.Statement (.frameBadcsum frame arrival) :=
  (by decide : (0x2#4 &&& 0xF#4) = 0x2#4)
theorem Sys2Proof.Laws.OpcodeRow.frameDataPos (ts : Sys2Proof.Stamp) (arrival : Sys2Proof.Word) :
    Sys2Proof.Laws.OpcodeRow.Statement (.frameDataPos ts arrival) :=
  (by decide : (0x2#4 &&& 0xF#4) = 0x2#4)
theorem Sys2Proof.Laws.OpcodeRow.frameDataNeg (ts : Sys2Proof.Stamp) (arrival : Sys2Proof.Word) :
    Sys2Proof.Laws.OpcodeRow.Statement (.frameDataNeg ts arrival) :=
  (by decide : (0x2#4 &&& 0xF#4) = 0x2#4)
theorem Sys2Proof.Laws.OpcodeRow.rderr : Sys2Proof.Laws.OpcodeRow.Statement .rderr :=
  (by decide : (0x3#4 &&& 0xF#4) = 0x3#4)
theorem Sys2Proof.Laws.OpcodeRow.spAdd (total count drift tare : Sys2Proof.Word) :
    Sys2Proof.Laws.OpcodeRow.Statement (.spAdd total count drift tare) :=
  (by decide : (0x4#4 &&& 0xF#4) = 0x4#4)
theorem Sys2Proof.Laws.OpcodeRow.sensor (kind : BitVec 16) (value : Sys2Proof.Word) :
    Sys2Proof.Laws.OpcodeRow.Statement (.sensor kind value) :=
  (by decide : (0x5#4 &&& 0xF#4) = 0x5#4)
theorem Sys2Proof.Laws.OpcodeRow.tareSet (value : Sys2Proof.Word) :
    Sys2Proof.Laws.OpcodeRow.Statement (.tareSet value) :=
  (by decide : (0x6#4 &&& 0xF#4) = 0x6#4)
theorem Sys2Proof.Laws.OpcodeRow.tareGet : Sys2Proof.Laws.OpcodeRow.Statement .tareGet :=
  (by decide : (0x7#4 &&& 0xF#4) = 0x7#4)
theorem Sys2Proof.Laws.OpcodeRow.reservedHigh (low : BitVec 3) :
    Sys2Proof.Laws.OpcodeRow.Statement (.reservedHigh low) := by
  revert low; unfold Sys2Proof.Laws.OpcodeRow.Statement; decide
end

