-- ==== Sys2Proof/Tests/Numbers0.lean ====
section
/-! SUPPORT. Tests of the fit and of binary64: expected values are those of spec/95_test_vectors.md and of IEEE 754. -/

namespace Sys2Proof.Tests

open Sys2Proof Sys2Proof.Machine

/-- V-SP-8 and W7. -/
theorem test_fit_unit_step : fit .exactRational 0 18 10000 20 20000 20 = some ⟨15000, 81 / 4⟩ := by decide +kernel
/-- V-SP-7 (times out of order) and V-SP-12 (collinear, coincident). -/
theorem test_fit_rejects : fit .exactRational 30000 18 10000 20 20000 20 = none ∧ fit .exactRational 0 0 10 10 20 20 = none ∧
    fit .exactRational 0 1 0 2 10 1 = none := by decide +kernel
/-- V-SP-10: the tolerance, inclusive. -/
theorem test_fit_tolerance : fit .exactRational 0 0 10000 32 20000 32 = some ⟨15000, 36⟩ ∧
    fit .exactRational 0 0 10000 34 20000 34 = none := by decide +kernel
/-- V-SP-13: a convex fit. -/
theorem test_fit_convex : fit .exactRational (-10) 1 0 0 10 1 = some ⟨0, 0⟩ := by decide +kernel
/-- V-SP-11 and V-SP-9: binary64 of 212/9 and of -9/4. -/
theorem test_rne : rne (212 / 9) = .ok 0x40378E38E38E38E4 ∧ rne (-9 / 4) = .ok 0xC002000000000000 ∧
    rne 0 = .ok 0 := by decide +kernel
/-- 93_implementation_defined.md I15: the largest finite value and twice it. -/
theorem test_rne_range : rne (f64Value 0x7FEFFFFFFFFFFFFF) = .ok 0x7FEFFFFFFFFFFFFF ∧
    rne (2 * f64Value 0x7FEFFFFFFFFFFFFF) = .error .rneOutOfRange ∧
    f64Add 0xFFEFFFFFFFFFFFFF 0xFFEFFFFFFFFFFFFF = .error .rneOutOfRange := by decide +kernel
/-- Program P4, line 14: 0.4 + 0.4 and 4.25 - (-2.25). -/
theorem test_f64_sums : f64Add 0x3FD999999999999A 0x3FD999999999999A = .ok 0x3FE999999999999A ∧
    f64Sub 0x4011000000000000 0xC002000000000000 = .ok 0x401A000000000000 := by decide +kernel
/-- Program P3: a half-period of 0.2 s. -/
theorem test_half_period : halfPeriod 200000 = .ok 0x3FC999999999999A := by decide +kernel

end Sys2Proof.Tests
end

