-- ==== Sys2Proof/Tests/Slice0.lean ====
section
/-! SUPPORT. The model's own tests: expected values are those of spec/95_test_vectors.md and 30_encoding.md. Those of the fit
and of binary64 are in Tests/Numbers0.lean, the witnesses of the statements in Tests/Witness0.lean. -/

namespace Sys2Proof.Tests

open Sys2Proof Sys2Proof.Machine

/-- The next state of an instruction, if it answers one. -/
def after (i : Instr) (s : State) : Option State :=
  match exec i s with
  | .next t => some t
  | .fault _ => none
  | .refused _ => none

/-- The next state of a step, if it answers one. -/
def afterStep (s : State) : Option State :=
  match step s with
  | .next t => some t
  | .fault _ => none
  | .refused _ => none

/-- The fault of an instruction, if it ends in one. -/
def faultOf (i : Instr) (s : State) : Option Fault :=
  match exec i s with
  | .next _ => none
  | .fault f => some f
  | .refused _ => none

/-- `A0` of 95_test_vectors.md. -/
def a0 : Word := 0x00060A24181E4000

/-- Power-on reset with a tare factor of 4 and two sensor kinds. -/
def base : State := State.resetWith 4 2 (by decide)

/-- The state after CONNECT from reset, its output stream empty. -/
def conn : State := { base with dec := { Decoder.reset with link := .connected } }

/-- A synchronised decoder over a link that is up, as program P2 has it before its fifth frame. -/
def synced : State :=
  { base with dec := { lastTs := 512, ovfCount := 0, position := 1, epochOffset := 1700000060000513, firstDev := 512,
                       lastArrival := 1700000060000513, link := .connected, errCount := 0, synced := true } }

/-- The processor at reset, with two sensor kinds. -/
def proc : Processor := Processor.reset 2 (by decide)

/-- The processor that has written these entries, oldest first, from reset. -/
def ringOf (entries : List Reading) : Processor := entries.foldl Processor.histWrite proc

/-- `conn` with an error count. -/
def errors (n : Nat) : State := { conn with dec := { conn.dec with errCount := n } }

/-! ## Well-formedness -/

theorem test_illformed_badcsum_sentinel : (Instr.frameBadcsum 0xFFFFFFFFFF 0).wellFormed = false := by decide
theorem test_illformed_badcsum_valid : (Instr.frameBadcsum 0x1234567888 0).wellFormed = false := by decide
theorem test_wellformed_badcsum : (Instr.frameBadcsum 0x000007D000 0).wellFormed = true := by decide
/-- R8: both ends of the range of the sensor kinds, and one beyond each; a ring of two entries. -/
theorem test_config_legal : Config.legal 0 1 = true ∧ Config.legal 0 65536 = true ∧ Config.legal 0 0 = false ∧
    Config.legal 0 65537 = false ∧ { Config.parameters 4 2 with histN := 2 }.violation = some .histN := by decide
theorem test_launch_refuses : State.launch 4 0 = .error .sensorKinds ∧ State.launch 4 65537 = .error .sensorKinds ∧
    State.launch 4 2 = .ok base := ⟨rfl, rfl, rfl⟩

/-! ## Decoding words written out from the spec -/

/-- V-DEC-1, V-DEC-3. -/
theorem test_decode_data_pos :
    decode ⟨0x2, 0x0000001234567888, 0x00060A24181E4000, 0, 0⟩ = .frameDataPos 0x12345678 a0 := by decide
/-- V-DEC-2. -/
theorem test_decode_data_neg : decode ⟨0x2, 0x0000001234567808, 0, 0, 0⟩ = .frameDataNeg 0x12345678 0 := by decide
/-- V-DEC-2. -/
theorem test_decode_sentinel : decode ⟨0x2, 0x000000FFFFFFFFFF, 7, 0, 0⟩ = .frameSentinel 7 := by decide
/-- V-DEC-2: expected 0x57, found 0x00. -/
theorem test_decode_badcsum :
    decode ⟨0x2, 0x000000000007D000, 9, 0, 0⟩ = .frameBadcsum 0x000007D000 9 := by decide
/-- V-DEC-2: all ones but the direction bit is no sentinel. -/
theorem test_decode_near_sentinel :
    decode ⟨0x2, 0x000000FFFFFFFF7F, 0, 0, 0⟩ = .frameBadcsum 0xFFFFFFFF7F 0 := by decide
/-- V-DEC-3. -/
theorem test_decode_sp_add : decode ⟨0x4, 0x0000000000102CA0, 0xFFFFFFFFFFFFFFFF, 5, 0⟩ =
    .spAdd 1060000 (BitVec.ofInt 64 (-1)) 5 0 := by decide
/-- V-DEC-3. -/
theorem test_decode_tare_set : decode ⟨0x6, 0xFFFFFFFFFFFFFFFD, 0, 0, 0⟩ = .tareSet (BitVec.ofInt 64 (-3)) := by decide
/-- Program P4, line 10. -/
theorem test_decode_sensor : decode ⟨0x5, 1, 0x00000000000003F5, 0, 0⟩ = .sensor 1 1013 := by decide
/-- 30_encoding.md R77, R81, R87, R88. -/
theorem test_decode_op_only :
    decode ⟨0x1, 0, 0, 0, 0⟩ = .connect ∧ decode ⟨0x3, 0, 0, 0, 0⟩ = .rderr ∧ decode ⟨0x7, 0, 0, 0, 0⟩ = .tareGet ∧
      decode ⟨0x0, 0, 0, 0, 0⟩ = .reservedZero ∧ decode ⟨0x8, 0, 0, 0, 0⟩ = .reservedHigh 0 ∧
      decode ⟨0xF, 0, 0, 0, 0⟩ = .reservedHigh 7 := by decide
/-- Frames of V-DEC-1. -/
theorem test_encode_frames :
    frameOfData 0x000F4240 true = 0x000F42408D ∧ frameOfData 0x000003ED false = 0x000003ED6E ∧
      frameOfData 0xFFFFFFF0 true = 0xFFFFFFF08F ∧ frameOfData 0x80000000 false = 0x8000000000 := by decide
theorem test_decodeTableWord :
    decodeTableWord 8 0x1 = some .connect ∧ decodeTableWord 8 0x2 = some (.frameDataNeg 0 0) ∧
      decodeTableWord 8 0xF = some (.reservedHigh 7) ∧ decodeTableWord 260 (2 ^ 4 * 0xFFFFFFFFFF + 2) =
        some (.frameSentinel 0) := by decide +kernel
theorem test_decode_rejects_longer : decodeBits (2 ^ 260) = .error .longerThanTransaction := by decide +kernel
theorem test_withFetchWord_runs :
    (afterStep (base.withFetchWord 8 0x6)).map (fun t => (t.tare, t.port)) = some (0, []) ∧
      (afterStep (base.withFetchWord 8 0x3)).map (fun t => (t.dec.errCount, t.port)) = some (1, []) := by decide +kernel

/-! ## One step of each instruction -/

/-- V-DEC-12: from reset. -/
theorem test_connect_reset : (after .connect base).map (fun t => (t.dec, t.out)) =
    some (conn.dec, [.status .connected false]) := by decide
/-- V-DEC-12: over a link that is up, every decoder field back at reset. -/
theorem test_connect_again : (after .connect synced).map (fun t => (t.dec, t.out)) =
    some (conn.dec, [.status .disconnected false, .status .connected false]) := by decide
/-- V-DEC-10. -/
theorem test_sentinel_keeps_errors : (after (.frameSentinel 0) (errors 9)).map (fun t => (t.dec.errCount, t.out)) =
    some (9, [.status .overflow false]) := by decide
/-- V-DEC-11, third case. -/
theorem test_badcsum_clears_errors : (after (.frameBadcsum 0x0000000100 0) (errors 9)).map (fun t => (t.dec.errCount, t.out)) =
    some (0, [.diag .csumMismatch]) := by decide
/-- V-DEC-11, first case. -/
theorem test_rderr_below_limit : (after .rderr (errors 3)).map (fun t => (t.dec.errCount, t.dec.link, t.out)) =
    some (4, .connected, [.status .error false]) := by decide
/-- V-DEC-11, second case: the breaker. -/
theorem test_rderr_breaker : (after .rderr (errors 9)).map (fun t => (t.dec.errCount, t.dec.link, t.out)) =
    some (10, .disconnected, [.status .error true, .status .disconnected false]) := by decide
/-- V-DEC-8: a wrap on a frame that resynchronises. -/
theorem test_data_pos_resync :
    (after (.frameDataPos 0x10 (a0 + 60000001))
      { conn with dec := { lastTs := 0xFFFFFF00, ovfCount := 0, position := 1, epochOffset := a0, firstDev := 0xFFFFFF00,
                           lastArrival := a0, link := .connected, errCount := 0, synced := true } }).map
      (fun t => (t.dec.ovfCount, t.dec.firstDev, t.dec.epochOffset, t.out)) =
    some (0, 16, a0 + 60000001, [.reading ⟨1700000060000001, 2, 0⟩]) := by decide +kernel
/-- V-CTL-2 with a factor of 4: the READING is not tared, the stored count is. -/
theorem test_data_pos_hands_off_tare :
    (after (.frameDataPos 5 a0) { conn with tare := 1 }).map (fun t => (t.out, (t.sp.histRead 1).toOption)) =
    some ([.reading ⟨a0, 1, 0⟩], some ⟨a0, BitVec.ofInt 64 (-3), 0⟩) := by decide +kernel
/-- Program P2, line 5: a gap of exactly 60 s does not resynchronise. -/
theorem test_data_neg_gap_boundary :
    (after (.frameDataNeg 768 1700000120000513) synced).map (fun t => (t.dec.firstDev, t.dec.position, t.out)) =
    some (512, 0, [.reading ⟨1700000060000769, 0, 59999744⟩]) := by decide +kernel
/-- V-DEC-5, with the direction reversed: a small backward step is a wrap. -/
theorem test_data_neg_backward_is_wrap :
    (after (.frameDataNeg 999 (a0 + 10))
      { conn with dec := { lastTs := 1000, ovfCount := 0, position := 1, epochOffset := a0, firstDev := 1000,
                           lastArrival := a0, link := .connected, errCount := 0, synced := true } }).map
      (fun t => (t.dec.ovfCount, t.out)) =
    some (1, [.reading ⟨1700004294967295, 0, BitVec.ofInt 64 (-4294967285)⟩]) := by decide +kernel
/-- V-SP-4, step 3: debounce at its bound, the half-period 0.1 and the positive peak. -/
theorem test_sp_add_debounce_bound :
    (after (.spAdd 1100000 (BitVec.ofInt 64 (-1)) 0 0)
      { base with sp := { ringOf [⟨0, BitVec.ofInt 64 (-1), 0⟩, ⟨1000000, 1, 0⟩] with lastZc := ⟨true, 1000000, true⟩ } }).map
      (fun t => (t.sp.lastZc, t.sp.posHalf, t.sp.negHalf, t.sp.posPeak, t.out)) =
    some (⟨true, 1100000, false⟩, 0, 0x3FB999999999999A, ⟨true, 591666, 0x40168D3018D3018D⟩, []) := by decide +kernel
/-- Program P4, line 9: the record, its amplitude and period rounded once. -/
theorem test_sp_add_cycle :
    (after (.spAdd 1600000 (BitVec.ofInt 64 (-1)) 5 0)
      { base with sp := { ringOf [⟨1400000, 1, 5⟩, ⟨1500000, 0, 5⟩] with
                          posPeak := ⟨true, 1350000, 0x4011000000000000⟩, negPeak := ⟨true, 1115606, 0xBFF88CDF770002FD⟩
                          lastZc := ⟨true, 1200000, true⟩, posHalf := 0x3FC851EB851EB852, negHalf := 0
                          sens := [215, 0] } }).map (fun t => (t.sp.negHalf, t.out)) =
    some (0x3FD999999999999A, [.cycle 1600000 5 0x40172337DDC000BF 0x3FE2E147AE147AE2 [215, 0]]) := by decide +kernel
/-- V-SP-16. -/
theorem test_sensor_stores : (after (.sensor 0 215) base).map (fun t => (t.sp.sens, t.refused, t.out)) =
    some ([215, 0], false, []) := by decide
/-- V-SP-16: a kind the block does not have. -/
theorem test_sensor_refused : (after (.sensor 2 7) base).map (fun t => (t.sp.sens, t.refused, t.out)) =
    some ([0, 0], true, []) := by decide
/-- V-CTL-1. -/
theorem test_tare_set : (after (.tareSet 0xFFFFFFFFFFFFFFFD) base).map (fun t => (t.tare, t.out)) =
    some (BitVec.ofInt 64 (-3), []) := by decide
/-- V-CTL-1. -/
theorem test_tare_get : (after .tareGet { base with tare := BitVec.ofInt 64 (-3) }).map (fun t => t.out) =
    some [.tareValue (BitVec.ofInt 64 (-3))] := by decide
/-- V-REF-1. -/
theorem test_reserved_zero : (afterStep { base with port := [⟨0x0, 1, 2, 3, 4⟩] }).map (fun t => (t.refused, t.port, t.out)) =
    some (true, [], []) := by decide
/-- V-REF-1. -/
theorem test_reserved_high : (afterStep { base with port := [⟨0xF, 1, 2, 3, 4⟩] }).map (fun t => (t.refused, t.port, t.out)) =
    some (true, [], []) := by decide
/-- V-DEC-13: a held frame stays, and a CONNECT behind it runs. -/
theorem test_hold_and_connect :
    (afterStep { base with port := [.scriptFramev 5 true a0] }).map (fun t => t.port) = some [.scriptFramev 5 true a0] ∧
    (afterStep { base with port := [.scriptFramev 5 true a0, ⟨0x1, 0, 0, 0, 0⟩] }).map (fun t => (t.dec.link, t.port)) =
      some (.connected, [.scriptFramev 5 true a0]) := by decide

end Sys2Proof.Tests
end

