-- ==== Sys2Proof/Tests/Witness0.lean ====
section
/-! SUPPORT. For every statement with hypotheses, a witness that meets them together, each clause at a boundary. -/

namespace Sys2Proof.Tests

open Sys2Proof Sys2Proof.Machine

/-- Reset values are bounded, and so are those after any writes to the ring. -/
theorem proc_floatBounds : proc.floatBounds := by decide +kernel

theorem base_floatBounds : base.sp.floatBounds := proc_floatBounds

theorem ringOf_floatBounds (entries : List Reading) : (ringOf entries).floatBounds := by
  suffices h : ∀ p : Processor, p.floatBounds → (entries.foldl Processor.histWrite p).floatBounds from h _ proc_floatBounds
  induction entries with
  | nil => exact fun _ h => h
  | cons e es ih => exact fun p h => ih (p.histWrite e) h

theorem test_witness_DecodeEncodeRoundTrip :
    (Instr.frameBadcsum 0x000007D000 9).wellFormed = true ∧ (Instr.frameDataPos 0xFFFFFFFF 1).wellFormed = true := by decide
theorem test_witness_ChecksumDefinition : (0 : Nat) < 5 ∧ (4 : Nat) < 5 := by decide
theorem test_witness_ValidFrameUnique : frameChecksumValid 0xFFFFFFFF80 = true := by decide
/-- The lowest and the highest bit of bytes 0 to 3, both kinds. -/
theorem test_witness_SingleBitCorruption : frameChecksumValid 0x1234567888 = true ∧ (8 ≤ 8 ∧ 8 < 40 ∧ 8 % 8 ≠ 7) ∧
    (8 ≤ 38 ∧ 38 < 40 ∧ 38 % 8 ≠ 7) ∧ (8 ≤ 15 ∧ 15 < 40 ∧ 15 % 8 = 7) ∧ (8 ≤ 39 ∧ 39 < 40 ∧ 39 % 8 = 7) := by decide
theorem test_witness_IgnoredFieldsIgnored :
    (∃ t u : Transaction, t ≠ u ∧ t.op = u.op ∧ t.op = 0x2 ∧ t.a.extractLsb' 0 40 = u.a.extractLsb' 0 40 ∧ t.b = u.b) ∧
    (∃ t u : Transaction, t ≠ u ∧ t.op = u.op ∧ t.op = 0x5 ∧ t.a.extractLsb' 0 16 = u.a.extractLsb' 0 16 ∧ t.b = u.b) ∧
    (∃ t u : Transaction, t ≠ u ∧ t.op = u.op ∧ t.op = 0x6 ∧ t.a = u.a) ∧
    (∃ t u : Transaction, t ≠ u ∧ t.op = u.op ∧ t.op ≠ 0x2 ∧ t.op ≠ 0x4 ∧ t.op ≠ 0x5 ∧ t.op ≠ 0x6) :=
  ⟨⟨⟨2, 0x010000000001, 3, 0, 0⟩, ⟨2, 0x020000000001, 3, 1, 1⟩, by decide⟩,
    ⟨⟨5, 0x10001, 3, 0, 0⟩, ⟨5, 0x20001, 3, 1, 1⟩, by decide⟩, ⟨⟨6, 1, 3, 0, 0⟩, ⟨6, 1, 4, 1, 1⟩, by decide⟩,
    ⟨⟨7, 1, 3, 0, 0⟩, ⟨7, 2, 4, 1, 1⟩, by decide⟩⟩
/-- A held RDERR before a TARE_GET; a held RDERR alone; nothing. -/
theorem test_witness_StepRunsDecodedTransaction :
    (∃ (s : State) (pre : List Transaction) (t : Transaction) (post : List Transaction),
      s.port = pre ++ t :: post ∧ pre ≠ [] ∧ (∀ u ∈ pre, s.holds u = true) ∧ s.holds t = false) ∧
    (∃ (s : State) (t : Transaction) (rest : List Transaction),
      s.port = t :: rest ∧ (∀ u ∈ s.port, s.holds u = true)) ∧ base.port = [] :=
  ⟨⟨{ base with port := [⟨3, 0, 0, 0, 0⟩, ⟨7, 0, 0, 0, 0⟩, ⟨1, 0, 0, 0, 0⟩] }, [⟨3, 0, 0, 0, 0⟩], ⟨7, 0, 0, 0, 0⟩,
      [⟨1, 0, 0, 0, 0⟩], by decide⟩,
    ⟨{ base with port := [⟨3, 0, 0, 0, 0⟩] }, ⟨3, 0, 0, 0, 0⟩, [], by decide⟩, by decide⟩
theorem test_witness_StepConsumesFirstAcceptable :
    ∃ (s : State) (pre : List Transaction) (t : Transaction) (post : List Transaction),
      s.port = pre ++ t :: post ∧ pre ≠ [] ∧ (∀ u ∈ pre, s.holds u = true) ∧ s.holds t = false ∧ s.sp.floatBounds ∧
        ∃ s', step s = .next s' :=
  ⟨{ base with port := [⟨3, 0, 0, 0, 0⟩, ⟨7, 0, 0, 0, 0⟩, ⟨1, 0, 0, 0, 0⟩] }, [⟨3, 0, 0, 0, 0⟩], ⟨7, 0, 0, 0, 0⟩,
    [⟨1, 0, 0, 0, 0⟩], by decide, by decide, by decide, by decide, base_floatBounds, ⟨_, rfl⟩⟩
theorem test_witness_HeldReadsWait :
    ((Instr.frameSentinel 0).serialRead = true ∧ base.dec.link = .disconnected) ∧
    (∃ s : State, s.port ≠ [] ∧ ∀ t ∈ s.port, s.holds t = true) ∧
    (∃ s s' : State, s.dec.link = .disconnected ∧ step s = .next s' ∧ s'.dec.link = .connected) ∧
    (∃ (s : State) (t : Transaction), (decode t).serialRead = false ∧ s.presented = some t ∧ s.sp.floatBounds ∧
      ∃ s', step s = .next s') :=
  ⟨by decide, ⟨{ base with port := [⟨2, 0, 0, 0, 0⟩, ⟨3, 0, 0, 0, 0⟩] }, by decide⟩,
    ⟨{ base with port := [⟨1, 0, 0, 0, 0⟩] }, _, rfl, rfl, rfl⟩, 
    ⟨{ base with port := [⟨7, 0, 0, 0, 0⟩] }, ⟨7, 0, 0, 0, 0⟩, by decide, by decide, base_floatBounds, ⟨_, rfl⟩⟩⟩
theorem test_witness_SentinelResult : conn.dec.link = .connected := by decide
theorem test_witness_BadChecksumResult : (errors 9).dec.link = .connected ∧ (0x000007D000 : Frame) ≠ 0xFFFFFFFFFF#40 ∧
    (frameByte 0x000007D000 0 ^^^ frameByte 0x000007D000 1 ^^^ frameByte 0x000007D000 2 ^^^ frameByte 0x000007D000 3) &&&
      0x7F#8 ≠ frameByte 0x000007D000 4 &&& 0x7F#8 := by decide
theorem test_witness_NonSentinelFrameClearsErrors :
    ∃ (i : Instr) (s t : State), i.serialRead = true ∧ i ≠ .rderr ∧ (∀ a, i ≠ .frameSentinel a) ∧
      s.dec.link = .connected ∧ s.dec.errCount = 9 ∧ exec i s = .next t :=
  ⟨.frameBadcsum 0x0000000100 0, errors 9, _, by decide, by decide, fun a => by simp, by decide, by decide, rfl⟩
theorem test_witness_DataFrameDecoderState : (conn.dec.link = .connected ∧ conn.sp.floatBounds) ∧ synced.dec.link = .connected ∧
    synced.sp.floatBounds := ⟨⟨rfl, base_floatBounds⟩, rfl, base_floatBounds⟩
theorem test_witness_DataFrameReading : synced.dec.link = .connected ∧ synced.sp.floatBounds := ⟨rfl, base_floatBounds⟩
theorem test_witness_HandOffIsAddReading : synced.dec.link = .connected ∧ synced.sp.floatBounds := ⟨rfl, base_floatBounds⟩
theorem test_witness_FirstFrameAnchors : conn.dec.link = .connected ∧ conn.sp.floatBounds ∧ conn.dec.synced = false :=
  ⟨rfl, base_floatBounds, rfl⟩
/-- A gap of exactly 60 s and one of a microsecond more. -/
theorem test_witness_ResynchronisationRule : synced.dec.link = .connected ∧ synced.sp.floatBounds ∧ synced.dec.synced = true ∧
    ¬ 60000000 < (BitVec.ofInt 64 ((1700000120000513 : Word).toInt - synced.dec.lastArrival.toInt)).toInt ∧
    60000000 < (BitVec.ofInt 64 ((1700000120000514 : Word).toInt - synced.dec.lastArrival.toInt)).toInt :=
  ⟨rfl, base_floatBounds, rfl, by decide +kernel⟩
/-- A gap of a microsecond above 60 s, the state between the frames the first frame's own next state. -/
theorem test_witness_GapForgetsWraps :
    ∃ (s t u : State), s.dec.link = .connected ∧ exec (dataFrame true 1000 a0) s = .next t ∧
      u.dec.lastArrival = t.dec.lastArrival ∧ u.dec.synced = t.dec.synced ∧ u.dec.link = .connected ∧ u.sp.floatBounds ∧
      60000000 < ((a0 + 60000001) - a0).toInt := by
  obtain ⟨q, evs, h1, h⟩ := exec_dataFrame_next true 1000 a0 conn (by decide) base_floatBounds
  obtain ⟨-, -, -, -, -, hb, -⟩ := conn.sp.addReading_spec h1
  exact ⟨conn, _, _, by decide, h, rfl, rfl, (by decide +kernel : (conn.dec.acceptFrame true 1000 a0).link = .connected),
    hb base_floatBounds, by decide +kernel⟩
/-- The last wrap count but one, the anchor at the last frame itself, and each of the three inner cases. -/
theorem test_witness_CumulativeTimeMonotone :
    ∃ s : State, s.dec.link = .connected ∧ s.sp.floatBounds ∧ s.dec.synced = true ∧
      s.dec.firstDev.toNat ≤ s.dec.ovfCount.toNat * 2 ^ 32 + s.dec.lastTs.toNat ∧ s.dec.ovfCount.toNat + 1 < 2 ^ 32 ∧
      s.dec.ovfCount.toNat + 2 = 2 ^ 32 ∧ ¬ 60000000 < ((1700000120000513 : Word) - s.dec.lastArrival).toInt ∧
      (511 : Stamp).toNat < s.dec.lastTs.toNat ∧ s.dec.lastTs.toNat ≤ (512 : Stamp).toNat :=
  ⟨{ synced with dec := { synced.dec with ovfCount := 0xFFFFFFFE, firstDev := 0xFFFFFFFE00000200 } }, rfl, base_floatBounds, rfl,
    by decide +kernel⟩
/-- Nine errors counted next is below the limit, ten is the limit. -/
theorem test_witness_ReadErrorAndBreaker :
    ((errors 8).dec.link = .connected ∧ (errors 8).dec.errCount + 1 < 10) ∧
    ((errors 9).dec.link = .connected ∧ 10 ≤ (errors 9).dec.errCount + 1) ∧ Instr.rderr.serialRead = true ∧
    Instr.tareGet ≠ .connect ∧ ∃ u, exec .tareGet base = .next u :=
  ⟨by decide, by decide, by decide, by decide, ⟨_, rfl⟩⟩
/-- The newest, the oldest, and one beyond each end. -/
theorem test_witness_HistReadRule :
    ∃ p : Processor, (1 ≤ 1 ∧ 1 ≤ p.nfill) ∧ (1 ≤ 1000 ∧ 1000 ≤ p.nfill) ∧ p.nfill < 1001 :=
  ⟨{ proc with nfill := 1000 }, by decide⟩
theorem test_witness_SpAddAppendsTaredReading :
    ∃ s : State, s.sp.floatBounds ∧ (1 ≤ 1 ∧ 1 < 1000 ∧ 1 ≤ s.sp.nfill) ∧ (1 ≤ 999 ∧ 999 < 1000 ∧ 999 ≤ s.sp.nfill) :=
  ⟨{ base with sp := { proc with nfill := 999 } }, base_floatBounds, by decide⟩
/-- `base` with a full ring and one transaction presented. -/
def full (t : Transaction) : State := { base with sp := { proc with nfill := 1000 }, port := [t] }

/-- A full ring, and a step of each kind: an SP_ADD, a data frame over a link that is up and one that is held, a TARE_GET. -/
theorem test_witness_RingHoldsLastReadings :
    (∃ s s' : State, s.sp.nfill = 1000 ∧ s.presented.map decode = some (.spAdd 1 2 3 0) ∧ step s = .next s') ∧
    (∃ s s' : State, s.sp.nfill = 1000 ∧ s.presented.map decode = some (.frameDataNeg 0 5) ∧ s.dec.link = .connected ∧
      step s = .next s') ∧
    (∃ s s' : State, s.sp.nfill = 1000 ∧ s.presented.map decode = some (.frameDataNeg 0 5) ∧
      s.dec.link = .disconnected ∧ step s = .next s') ∧
    ∃ s s' : State, s.sp.nfill = 1000 ∧ s.presented.map decode = some .tareGet ∧ step s = .next s' := by
  have run : ∀ {s t : State} {u : Transaction} {i : Instr}, s.presented = some u → decode u = i → exec i s = .next t →
      step s = .next t := by
    intro s t u i h1 h2 h3; rw [step, h1, ← h3, ← h2]
  refine ⟨?_, ?_, ⟨full ⟨2, 0, 5, 0, 0⟩, _, rfl, by decide, rfl, rfl⟩, ⟨full ⟨7, 0, 0, 0, 0⟩, _, rfl, by decide, rfl⟩⟩
  · obtain ⟨q, evs, -, h⟩ := exec_spAdd_next 1 2 3 0 (full ⟨4, 1, 2, 3, 0⟩) proc_floatBounds
    exact ⟨_, _, rfl, by decide, run (u := ⟨4, 1, 2, 3, 0⟩) (by decide) (by decide) h⟩
  · obtain ⟨q, evs, -, h⟩ := exec_dataFrame_next false 0 5 { full ⟨2, 0, 5, 0, 0⟩ with dec := conn.dec } rfl proc_floatBounds
    exact ⟨_, _, rfl, by decide, rfl, run (u := ⟨2, 0, 5, 0, 0⟩) (by decide) (by decide) h⟩
/-- The entry count 0; V-SP-4: one entry before the new one; elapsed 100 000 and 99 999 microseconds; a rising and a falling crossing from 0. -/
theorem test_witness_CrossingRule :
    base.sp.nfill = 0 ∧ ∃ (s : State) (prev : Reading), s.sp.floatBounds ∧ 1 ≤ s.sp.nfill ∧ s.sp.histRead 1 = .ok prev ∧ prev.count.toInt ≤ 0 ∧
      0 ≤ prev.count.toInt ∧ s.sp.lastZc.valid = true ∧ ¬ (1100000 : Word).toInt - s.sp.lastZc.time.toInt < 100000 ∧
      (1099999 : Word).toInt - s.sp.lastZc.time.toInt < 100000 := by
  refine ⟨by decide, { base with sp := { ringOf [⟨1000000, 0, 0⟩] with lastZc := ⟨true, 1000000, true⟩ } }, ⟨1000000, 0, 0⟩, ?_⟩
  refine ⟨ringOf_floatBounds [⟨1000000, 0, 0⟩], by decide, ?_, by decide, by decide, by decide, by decide, by decide⟩
  exact Processor.histRead_one_histWrite _ _
/-- One entry; then V-SP-8: counts 9, 10 and then 9; and its mirror. -/
theorem test_witness_PeakRule :
    (∃ s : State, s.sp.floatBounds ∧ s.sp.nfill = 1 ∧ s.sp.nfill < 2) ∧
    (∃ (s : State) (e1 e2 : Reading), s.sp.floatBounds ∧ 2 ≤ s.sp.nfill ∧ s.sp.histRead 2 = .ok e1 ∧ s.sp.histRead 1 = .ok e2 ∧
      e2.count.toInt * 2 > e1.count.toInt * 2 ∧ e2.count.toInt * 2 > (9 : Word).toInt * 2 ∧ e2.count.toInt * 2 > 0) ∧
    (∃ (s : State) (e1 e2 : Reading), s.sp.floatBounds ∧ 2 ≤ s.sp.nfill ∧ s.sp.histRead 2 = .ok e1 ∧ s.sp.histRead 1 = .ok e2 ∧
      e2.count.toInt * 2 < e1.count.toInt * 2 ∧ e2.count.toInt * 2 < (9 : Word).toInt * 2 ∧ e2.count.toInt * 2 < 0) :=
  ⟨⟨{ base with sp := ringOf [⟨0, 9, 0⟩] }, ringOf_floatBounds _, by decide⟩,
    ⟨{ base with sp := ringOf [⟨0, 9, 0⟩, ⟨10000, 10, 0⟩] }, ⟨0, 9, 0⟩, ⟨10000, 10, 0⟩, ringOf_floatBounds _, by decide,
      (Processor.histRead_succ_histWrite _ _ (by decide) (by decide) (by decide)).trans
        (Processor.histRead_one_histWrite _ _), Processor.histRead_one_histWrite _ _, by decide⟩,
    ⟨{ base with sp := ringOf [⟨0, 1, 0⟩, ⟨10000, -1, 0⟩] }, ⟨0, 1, 0⟩, ⟨10000, -1, 0⟩, ringOf_floatBounds _, by decide,
      (Processor.histRead_succ_histWrite _ _ (by decide) (by decide) (by decide)).trans
        (Processor.histRead_one_histWrite _ _), Processor.histRead_one_histWrite _ _, by decide⟩⟩
/-- V-SP-8 (accepted) and V-SP-12 (a line, and two equal times); its parabola, which the uniqueness clause asks for. -/
theorem test_witness_FitIsVertexOfParabola :
    ((0 : Int) ≠ 10000 ∧ (20000 : Int) ≠ 10000 ∧ (0 : Int) ≠ 20000) ∧
    (∃ a' b' c' : Rat, a' * (((0 : Int) : Rat) - (10000 : Int)) ^ 2 + b' * (((0 : Int) : Rat) - (10000 : Int)) + c' = (18 : Int) ∧
      c' = (20 : Int) ∧
      a' * (((20000 : Int) : Rat) - (10000 : Int)) ^ 2 + b' * (((20000 : Int) : Rat) - (10000 : Int)) + c' = (20 : Int)) ∧
    ((0 : Int) ≠ 10 ∧ (20 : Int) ≠ 10 ∧ (0 : Int) ≠ 20) ∧ (0 : Int) = 0 :=
  ⟨by decide, ⟨-1 / 10 ^ 8, 1 / 10 ^ 4, 20, by norm_num⟩, by decide, rfl⟩
/-- V-SP-10: the vertex at the tolerance of 4 exactly. -/
theorem test_witness_InterpolationIsExact :
    ∃ curvature vertexTime vertexValue : Rat, curvature ≠ 0 ∧ (0 : Int) ≠ 10000 ∧ (20000 : Int) ≠ 10000 ∧ (0 : Int) ≠ 20000 ∧
      ((0 : Int) : Rat) = curvature * (((0 : Int) : Rat) - vertexTime) ^ 2 + vertexValue ∧
      ((32 : Int) : Rat) = curvature * (((10000 : Int) : Rat) - vertexTime) ^ 2 + vertexValue ∧
      ((32 : Int) : Rat) = curvature * (((20000 : Int) : Rat) - vertexTime) ^ 2 + vertexValue ∧
      ((0 : Int) : Rat) ≤ vertexTime ∧ vertexTime ≤ ((20000 : Int) : Rat) ∧ |vertexValue - ((32 : Int) : Rat)| ≤ 4 :=
  ⟨-16 / 10 ^ 8, 15000, 36, by norm_num⟩
/-- V-SP-11: a spacing ratio of 8 is accepted, one of 9 is not. -/
theorem test_witness_UnitStepExtremum : (0 : Int) < 10000 ∧ (10000 : Int) < 90000 ∧ (10000 : Int) < 100000 ∧
    (90000 - 10000 : Int) ^ 2 ≤ 8 * (10000 - 0) * ((10000 - 0) + (90000 - 10000)) ∧
    ¬ (100000 - 10000 : Int) ^ 2 ≤ 8 * (10000 - 0) * ((10000 - 0) + (100000 - 10000)) ∧
    (fit .exactRational 0 18 10000 20 90000 20).isSome = true := by decide +kernel
theorem test_witness_PeakTimeFits : |(20 : Int)| ≤ 2 ^ 64 + 2 ∧
    fit .exactRational (0 : Word).toInt 18 (10000 : Word).toInt 20 (20000 : Word).toInt 20 = some ⟨15000, 81 / 4⟩ := by
  decide +kernel
theorem test_witness_CycleRule :
    base.sp.nfill = 0 ∧ ∃ (s : State) (prev : Reading), s.sp.floatBounds ∧ 1 ≤ s.sp.nfill ∧ s.sp.histRead 1 = .ok prev :=
  ⟨by decide, { base with sp := ringOf [⟨1500000, 0, 5⟩] }, ⟨1500000, 0, 5⟩, ringOf_floatBounds _, by decide, Processor.histRead_one_histWrite _ _⟩
/-- The last kind the block has, and the first it does not. -/
theorem test_witness_SensorStores : (1 : BitVec 16).toNat < base.sp.sens.length := by decide
theorem test_witness_RefusalOnlyMarks : base.sp.sens.length ≤ (2 : BitVec 16).toNat ∧ 8 ≤ (0x8 : BitVec 4).toNat ∧
    8 ≤ (0xF : BitVec 4).toNat := by decide
theorem test_witness_RefusedIsSticky :
    (∃ t, exec (.sensor 2 7) base = .next t) ∧ ∃ t, exec .tareGet { base with refused := true } = .next t :=
  ⟨⟨_, rfl⟩, ⟨_, rfl⟩⟩
theorem test_witness_RepeatedWritesIdempotent :
    ∀ i : Instr, i = .sensor 1 5 ∨ i = .tareSet 5 ∨ i = .tareGet →
      ∃ t u, exec i base = .next t ∧ exec i t = .next u := by
  rintro i (rfl | rfl | rfl) <;> exact ⟨_, _, rfl, rfl⟩
/-- The one launch of the host, and one with chosen parameters. -/
theorem test_witness_ResetValues :
    (∃ s : State, s = State.reset) ∧ ∃ (s : State) (factor : Int) (kinds : Nat), State.launch factor kinds = .ok s :=
  ⟨⟨_, rfl⟩, ⟨base, 4, 2, rfl⟩⟩
/-- Both ends of the range of the sensor kinds, and one beyond each. -/
theorem test_witness_LaunchRefusesBrokenConstraints : (Config.parameters 4 0).violation = some .sensorKinds ∧
    (1 ≤ 1 ∧ 1 ≤ 2 ^ 16) ∧ (1 ≤ 65536 ∧ 65536 ≤ 2 ^ 16) ∧ 0 < 1 ∧ 2 ^ 16 < 65537 := by decide
theorem test_witness_EventsOfEachClass : ∃ t, exec .rderr conn = .next t := ⟨_, rfl⟩
theorem test_witness_StateOwnership :
    (∃ t, exec .connect base = .next t ∧ t.dec ≠ base.dec) ∧
    (∃ t, exec (.sensor 1 5) base = .next t ∧ t.sp.sens ≠ base.sp.sens) ∧
    (∃ t, exec (.tareSet 5) base = .next t ∧ t.tare ≠ base.tare) ∧
    (∃ t, exec (.spAdd 1 2 3 0) base = .next t ∧ { t.sp with sens := base.sp.sens } ≠ base.sp) := by
  refine ⟨⟨_, rfl, by decide⟩, ⟨_, rfl, by decide⟩, ⟨_, rfl, by decide⟩, ?_⟩
  obtain ⟨q, evs, h1, h2⟩ := exec_spAdd_next 1 2 3 0 base base_floatBounds
  refine ⟨_, h2, fun h => ?_⟩
  obtain ⟨-, -, h4, -⟩ := base.sp.addReading_spec h1
  have := congrArg Processor.nfill h
  simp [h4, base, State.resetWith, Processor.reset] at this
/-- The link goes up by a CONNECT, and down by the tenth read error. -/
theorem test_witness_LinkTransitions :
    (∃ s s' : State, step s = .next s' ∧ s'.dec.link ≠ s.dec.link ∧ s.dec.link = .disconnected) ∧
    ∃ s s' : State, step s = .next s' ∧ s'.dec.link ≠ s.dec.link ∧ s.dec.link = .connected :=
  ⟨⟨{ base with port := [⟨1, 0, 0, 0, 0⟩] }, _, rfl, by decide, rfl⟩,
    ⟨{ errors 9 with port := [⟨3, 0, 0, 0, 0⟩] }, _, rfl, by decide, rfl⟩⟩
theorem test_witness_DecoderInvariantKept : (errors 9).dec.inv ∧ ∃ s', step (errors 9) = .next s' :=
  ⟨by decide, ⟨_, rfl⟩⟩
theorem test_witness_RingInvariantKept : base.sp.ringInv ∧ base.sp.bankInv ∧ ∃ s', step base = .next s' :=
  ⟨by decide, by decide, ⟨_, rfl⟩⟩
theorem test_witness_StoredFloatsFinite : base.sp.floatInv ∧ ∃ s', step base = .next s' :=
  ⟨⟨base_floatBounds, by decide⟩, ⟨_, rfl⟩⟩
/-- A state with bounded values; SENSOR, which adds no Reading; and, in a state that no run reaches, two half-periods whose sum leaves
the finite range. -/
theorem test_witness_BlockNeverFaults : base.sp.floatBounds ∧ (Instr.sensor 0 1).addsReading = false ∧
    faultOf (.spAdd 1600000 (BitVec.ofInt 64 (-1)) 5 0)
      { base with sp := { ringOf [⟨1500000, 1, 5⟩] with
                          posPeak := ⟨true, 0, 0⟩, negPeak := ⟨true, 0, 0⟩, lastZc := ⟨true, 1200000, true⟩
                          posHalf := 0x7FEFFFFFFFFFFFFF } } = some .rneOutOfRange :=
  ⟨base_floatBounds, rfl, by decide +kernel⟩
theorem test_witness_ResetMeetsInvariants : State.launch 4 2 = .ok base := rfl
/-- Two states that differ in the time of a peak only. -/
theorem test_witness_HiddenStateUnobservable :
    ∃ s s' : State, s ≠ s' ∧ s.sameObservable s' ∧ (∃ t, exec .tareGet s = .next t) := by
  refine ⟨base, { base with sp := { base.sp with posPeak := ⟨false, 1, 0⟩ } }, ?_, ?_⟩
  · intro h; exact absurd (congrArg (fun s => s.sp.posPeak.time) h) (by decide)
  · exact ⟨⟨rfl, rfl, rfl, rfl, rfl, rfl, rfl, rfl, rfl, rfl, rfl, rfl, rfl, rfl, rfl, rfl, rfl⟩, ⟨_, rfl⟩⟩
/-- A subnormal, the largest finite value, the negative zero. -/
theorem test_witness_RneOfRepresentable : f64Finite 0x0000000000000001 = true ∧ f64Finite 0x7FEFFFFFFFFFFFFF = true ∧
    f64Finite 0x8000000000000000 = true := by decide
/-- A tie: 2^53 + 1 lies half way between 2^53 and 2^53 + 2. Then twice the largest finite value, and 2^1024. -/
theorem test_witness_RneIsNearestEven : |(9007199254740993 : Rat)| ≤ f64Value 0x7FEFFFFFFFFFFFFF ∧ f64Finite 0x4340000000000001 = true ∧
    rne 9007199254740993 = .ok 0x4340000000000000 ∧
    |f64Value 0x4340000000000001 - 9007199254740993| = |f64Value 0x4340000000000000 - 9007199254740993| ∧
    f64Value 0x4340000000000001 ≠ f64Value 0x4340000000000000 ∧
    f64Value 0x7FEFFFFFFFFFFFFF < |2 * f64Value 0x7FEFFFFFFFFFFFFF| := by decide +kernel
theorem test_witness_OperationsRoundOnce : f64Finite 0x4011000000000000 = true ∧ f64Finite 0xC002000000000000 = true ∧
    f64Value 0x4011000000000000 + f64Value 0xC002000000000000 ≠ 0 ∧
    f64Value 0x4011000000000000 - f64Value 0xC002000000000000 ≠ 0 ∧
    f64IsZero 0xC002000000000000 = false ∧ f64IsZero 0x4011000000000000 = false := by decide +kernel
theorem test_witness_HalfPeriodValue : |(2 ^ 53 : Int)| ≤ 2 ^ 53 ∧ (Config.debounceUs ≤ 100000 ∧ (100000 : Int) < 2 ^ 64) ∧
    (Config.debounceUs ≤ 2 ^ 64 - 1 ∧ (2 ^ 64 - 1 : Int) < 2 ^ 64) := by decide

end Sys2Proof.Tests
end

/-! Proofs of the statements on binary64 rounding and on launch (00_scope.md R8, R12). -/

namespace Sys2Proof

/-! ## The check on the parameters -/

/-- The check passes exactly where every constraint of 00_scope.md R8 holds. -/
theorem Parameters.violation_eq_none_iff (c : Parameters) : c.violation = none ↔
    3 ≤ c.histN ∧ 1 ≤ c.errLimit ∧ 0 ≤ c.resyncGapUs ∧ 0 ≤ c.debounceUs ∧ 1 ≤ c.degPerStep ∧ 0 ≤ c.peakTol ∧
      1 ≤ c.sensorKinds ∧ c.sensorKinds ≤ 2 ^ 16 := by
  unfold Parameters.violation
  repeat' split
  all_goals simp only [reduceCtorEq, false_iff, true_iff]; omega

/-- The number of sensor kinds is the one constraint this hardware's parameters can break. -/
theorem Config.parameters_violation_kinds (factor : Int) {kinds : Nat} (h : kinds < 1 ∨ 2 ^ 16 < kinds) :
    (Config.parameters factor kinds).violation = some .sensorKinds := by
  have hfixed : ¬ Config.resyncGapUs < 0 ∧ ¬ Config.debounceUs < 0 ∧ ¬ Config.degPerStep < 1 ∧ ¬ Config.peakTol < 0 ∧
    ¬ Config.histN < 3 ∧ ¬ Config.errLimit < 1 := by decide
  simp only [Config.parameters, Parameters.violation, hfixed, h, if_false, if_true]

end Sys2Proof

namespace Sys2Proof.Machine

/-! ## Magnitude bits: their order, and what they say of a pattern -/

/-- The next magnitude is one more unit in the last place, so magnitudes are ordered as their bits are. -/
theorem magnitudeValue_strictMono : StrictMono magnitudeValue := by
  refine strictMono_nat_of_lt_succ fun m => ?_
  obtain ⟨k, e, hk, he, hm, hn, hbits⟩ := magnitudeValue_form m
  have hsucc : magnitudeValue (m + 1) = ((k + 1 : Nat) : Rat) * 2 ^ e := by
    rw [hbits, Nat.add_assoc, magnitudeValue_round he (by omega) (by omega)]
  rw [hm, hsucc]
  gcongr
  omega

@[simp] theorem magnitudeValue_zero : magnitudeValue 0 = 0 := by simp [magnitudeValue]

theorem f64Finite_iff (x : F64) : f64Finite x = true ↔ x.toNat % 2 ^ 63 < f64InfinityBits := by
  simp only [f64Finite, f64Exponent_eq, f64InfinityBits, bne_iff_ne]; omega

theorem f64IsZero_iff (x : F64) : f64IsZero x = true ↔ x.toNat % 2 ^ 63 = 0 := by
  simp only [f64IsZero, f64Exponent_eq, f64Fraction_eq, Bool.and_eq_true, beq_iff_eq]; omega

/-- The finite range, in magnitudes: the bits below those of infinity. -/
theorem f64Value_largest_eq : f64Value f64Largest = magnitudeValue (f64InfinityBits - 1) := by decide +kernel

theorem abs_f64Value_le_largest {x : F64} (h : f64Finite x = true) : |f64Value x| ≤ f64Value f64Largest := by
  rw [f64Finite_iff] at h
  rw [abs_f64Value, f64Value_largest_eq]
  exact magnitudeValue_strictMono.monotone (by omega)

theorem magnitudeValue_infinityBits : magnitudeValue f64InfinityBits = 2 ^ 1024 := by decide +kernel

/-- A pattern's value is negative where its sign bit is set, but for the negative zero. -/
theorem f64Value_neg_iff (x : F64) : f64Value x < 0 ↔ x.msb = true ∧ x.toNat % 2 ^ 63 ≠ 0 := by
  have hpos : 0 < magnitudeValue (x.toNat % 2 ^ 63) ↔ x.toNat % 2 ^ 63 ≠ 0 := by
    rw [← magnitudeValue_zero, magnitudeValue_strictMono.lt_iff_lt, Nat.pos_iff_ne_zero]
  rw [f64Value_eq, ← hpos]
  cases x.msb
  · simpa using magnitudeValue_nonneg _
  · simp

/-! ## The nearest magnitude -/

/-- No magnitude is nearer to `q` than the one with bits `M`, and if another is as near then `M` is even. The magnitudes go on above
those of infinity, as if the exponent had no upper end. -/
def IsNearestEven (M : Nat) (q : Rat) : Prop :=
  ∀ m, |magnitudeValue M - q| ≤ |magnitudeValue m - q| ∧
    (|magnitudeValue m - q| = |magnitudeValue M - q| → m ≠ M → M % 2 = 0)

section
variable {M : Nat} {q : Rat}

/-- Rounding does not go up past a magnitude. -/
theorem IsNearestEven.le_of_le (h : IsNearestEven M q) {b : Nat} (hb : q ≤ magnitudeValue b) : M ≤ b := by
  by_contra! hlt
  have hval := magnitudeValue_strictMono hlt
  have hnear := (h b).1
  rw [abs_of_nonneg (by linarith), abs_of_nonneg (by linarith)] at hnear
  linarith

/-- Rounding does not go down past a magnitude. -/
theorem IsNearestEven.ge_of_ge (h : IsNearestEven M q) {b : Nat} (hb : magnitudeValue b ≤ q) : b ≤ M := by
  by_contra! hlt
  have hval := magnitudeValue_strictMono hlt
  have hnear := (h b).1
  rw [abs_of_nonpos (by linarith), abs_of_nonpos (by linarith)] at hnear
  linarith

/-- The nearest magnitude of a magnitude is itself. -/
theorem IsNearestEven.eq {m : Nat} (h : IsNearestEven M (magnitudeValue m)) : M = m :=
  le_antisymm (h.le_of_le le_rfl) (h.ge_of_ge le_rfl)

end

theorem isNearestEven_zero : IsNearestEven 0 0 := fun _ => ⟨by simp, fun _ _ => rfl⟩

/-- An integer within one half of `x` is nearest among the integers; another is as near only where the distance is one half. -/
theorem abs_sub_le_of_le_half {k : Nat} {x : Rat} (h : |(k : Rat) - x| ≤ 1 / 2) (j : Nat) :
    |(k : Rat) - x| ≤ |(j : Rat) - x| ∧ (|(j : Rat) - x| = |(k : Rat) - x| → j ≠ k → |(k : Rat) - x| = 1 / 2) := by
  rcases eq_or_ne j k with rfl | hne
  · exact ⟨le_rfl, fun _ h => absurd rfl h⟩
  · have hone : (1 : Rat) ≤ |(j : Rat) - k| := by
      have := Int.one_le_abs (sub_ne_zero.2 (Int.natCast_inj.not.2 hne))
      exact_mod_cast this
    have htri : |(j : Rat) - k| ≤ |(j : Rat) - x| + |(k : Rat) - x| := by
      rw [abs_sub_comm (k : Rat) x]; exact abs_sub_le _ _ _
    exact ⟨by linarith, fun heq _ => by linarith⟩

/-- A magnitude is a whole number of units `2^lsb`, or lies below all the 53-bit significands of that unit. -/
theorem magnitudeValue_multiple_or_lt (m : Nat) (lsb : Int) :
    (∃ j : Nat, magnitudeValue m / 2 ^ lsb = j) ∨ (lsb ≠ -1074 ∧ magnitudeValue m / 2 ^ lsb < 2 ^ 52) := by
  obtain ⟨k, e, hk, he, hm, -, -⟩ := magnitudeValue_form m
  have two0 : (2 : Rat) ≠ 0 := by norm_num
  rw [hm, mul_div_assoc, ← zpow_sub₀ two0]
  rcases le_or_gt lsb e with hle | hgt
  · obtain ⟨i, hi⟩ := Int.eq_ofNat_of_zero_le (sub_nonneg.2 hle)
    exact .inl ⟨k * 2 ^ i, by rw [hi]; push_cast; rfl⟩
  · refine .inr ⟨by omega, ?_⟩
    have hkq : (k : Rat) < 2 ^ 53 := by exact_mod_cast hk
    calc (k : Rat) * 2 ^ (e - lsb) < 2 ^ 53 * 2 ^ (e - lsb) := by gcongr
      _ ≤ 2 ^ 53 * 2 ^ (-1 : Int) := by gcongr <;> [norm_num; omega]
      _ = 2 ^ 52 := by norm_num

/-- A significand within one half of the exact one, even on a tie, with its last place as fine as 53 bits and the subnormal range
allow, is that of the nearest magnitude. -/
theorem isNearestEven_of_significand {lsb : Int} {k : Nat} {q : Rat} (hl : -1074 ≤ lsb) (hk : k ≤ 2 ^ 53)
    (hn : lsb = -1074 ∨ 2 ^ 52 ≤ k) (hhalf : |(k : Rat) - q / 2 ^ lsb| ≤ 1 / 2)
    (htie : |(k : Rat) - q / 2 ^ lsb| = 1 / 2 → k % 2 = 0) (hlo : lsb = -1074 ∨ (2 : Rat) ^ (lsb + 52) ≤ q) :
    IsNearestEven ((lsb + 1074).toNat * 2 ^ 52 + k) q := by
  intro m
  have hu : (0 : Rat) < 2 ^ lsb := by positivity
  -- distances in units of the last place
  have hunit (v : Rat) : |v - q| = |v / 2 ^ lsb - q / 2 ^ lsb| * 2 ^ lsb := by
    rw [← sub_div, abs_div, abs_of_pos hu, div_mul_cancel₀ _ hu.ne']
  rw [hunit, hunit (magnitudeValue m), mul_le_mul_iff_left₀ hu, mul_left_inj' hu.ne', magnitudeValue_round hl hk hn,
    mul_div_cancel_right₀ _ hu.ne']
  rcases magnitudeValue_multiple_or_lt m lsb with ⟨j, hj⟩ | ⟨hnorm, hlt⟩
  · rw [hj]
    obtain ⟨hle, heven⟩ := abs_sub_le_of_le_half hhalf j
    refine ⟨hle, fun heq hne => ?_⟩
    have hjk : j ≠ k := by
      rintro rfl
      refine hne (magnitudeValue_strictMono.injective ?_)
      rw [magnitudeValue_round hl hk hn, ← hj, div_mul_cancel₀ _ hu.ne']
    have := htie (heven heq hjk)
    omega
  · have hq : (2 : Rat) ^ 52 ≤ q / 2 ^ lsb := by
      rw [le_div_iff₀ hu, ← zpow_natCast, ← zpow_add₀ (by norm_num), add_comm]
      exact hlo.resolve_left hnorm
    have hle := (abs_sub_le_of_le_half hhalf (2 ^ 52)).1
    have hstrict : |((2 ^ 52 : Nat) : Rat) - q / 2 ^ lsb| < |magnitudeValue m / 2 ^ lsb - q / 2 ^ lsb| := by
      push_cast
      rw [abs_of_nonpos (by linarith), abs_of_nonpos (by linarith)]
      linarith
    exact ⟨by linarith, fun heq => by linarith⟩

/-- The rounding, in every case: the sign of `q` and the nearest magnitude, cut off at infinity. -/
theorem roundNearest_eq (q : Rat) : ∃ M, IsNearestEven M |q| ∧
    roundNearest q = f64WithSign (decide (q < 0)) (min M f64InfinityBits) := by
  by_cases h0 : q.num = 0
  · obtain rfl := Rat.num_eq_zero.1 h0
    exact ⟨0, by simpa using isNearestEven_zero, by decide⟩
  · obtain ⟨lsb, k, hl, hk, hn, hround, hhalf, htie, hlo, -⟩ :=
      roundMagnitude_spec (Int.natAbs_pos.2 h0) q.pos
    rw [natAbs_num_div_den] at hhalf htie hlo
    refine ⟨_, isNearestEven_of_significand hl hk hn hhalf htie hlo, ?_⟩
    rw [roundNearest, if_neg h0, hround]
    simp only [Rat.num_neg]

/-- On the finite range the rounding does not overflow. -/
theorem roundNearest_eq_of_le_largest {q : Rat} (h : |q| ≤ f64Value f64Largest) :
    ∃ M < f64InfinityBits, IsNearestEven M |q| ∧ roundNearest q = f64WithSign (decide (q < 0)) M := by
  obtain ⟨M, hM, hr⟩ := roundNearest_eq q
  have hlt : M < f64InfinityBits := by
    have := hM.le_of_le (h.trans_eq f64Value_largest_eq)
    simp only [f64InfinityBits] at *; omega
  exact ⟨M, hlt, hM, by rw [hr, min_eq_left hlt.le]⟩

/-- From 2^1024 up the rounding overflows. -/
theorem roundNearest_overflow {q : Rat} (h : 2 ^ 1024 ≤ |q|) :
    roundNearest q = if q < 0 then 0xFFF0000000000000 else 0x7FF0000000000000 := by
  obtain ⟨M, hM, hr⟩ := roundNearest_eq q
  have hle : f64InfinityBits ≤ M := hM.ge_of_ge (magnitudeValue_infinityBits.trans_le h)
  rw [hr, min_eq_right hle]
  by_cases hneg : q < 0
  · rw [if_pos hneg, decide_eq_true hneg]; decide
  · rw [if_neg hneg, decide_eq_false hneg]; decide

theorem roundNearest_f64Value {x : F64} (h : f64Finite x = true) :
    roundNearest (f64Value x) = if f64IsZero x then 0 else x := by
  obtain ⟨M, -, hM, hr⟩ := roundNearest_eq_of_le_largest (abs_f64Value_le_largest h)
  rw [abs_f64Value] at hM
  rw [hr, hM.eq]
  by_cases h0 : x.toNat % 2 ^ 63 = 0
  · have hneg : ¬ f64Value x < 0 := fun hlt => ((f64Value_neg_iff x).1 hlt).2 h0
    rw [if_pos ((f64IsZero_iff x).2 h0), h0, decide_eq_false hneg]; decide
  · have hneg : decide (f64Value x < 0) = x.msb := by
      rw [Bool.eq_iff_iff, decide_eq_true_iff, f64Value_neg_iff, and_iff_left h0]
    rw [if_neg (mt (f64IsZero_iff x).1 h0), hneg, f64WithSign_self]

/-! ## The signed nearest value -/

/-- At the sign of `q`, the distance to `q` is the distance of the magnitudes. -/
theorem abs_withSign_sub (q a : Rat) : |(if q < 0 then -a else a) - q| = |a - (|q|)| := by
  split
  · rename_i h; rw [abs_of_neg h, ← abs_neg]; congr 1; ring
  · rename_i h; rw [abs_of_nonneg (not_lt.1 h)]

/-- A value as near to `q` as its magnitude is to that of `q` has the sign of `q`. -/
theorem eq_withSign_of_dist_eq {q a y : Rat} (hq : q ≠ 0) (hy : |y| = a) (h : |y - q| = |a - (|q|)|) :
    y = if q < 0 then -a else a := by
  have hsq : (y - q) ^ 2 = (a - |q|) ^ 2 := sq_eq_sq_iff_abs_eq_abs _ _ |>.2 h
  have hmul : y * q = a * |q| := by
    have hy2 : y ^ 2 = a ^ 2 := by rw [← hy, sq_abs]
    linear_combination (hy2 - sq_abs q - hsq) / 2
  apply mul_right_cancel₀ hq
  rw [hmul]
  split
  · rename_i hneg; rw [abs_of_neg hneg]; ring
  · rename_i hneg; rw [abs_of_nonneg (not_lt.1 hneg)]

/-- With the sign of `q`, the magnitude nearest to that of `q` is nearest to `q` among all values of either sign. -/
theorem IsNearestEven.withSign {M : Nat} {q v : Rat} (h : IsNearestEven M |q|)
    (hv : v = if q < 0 then -magnitudeValue M else magnitudeValue M) (y : F64) :
    |v - q| ≤ |f64Value y - q| ∧ (|f64Value y - q| = |v - q| → f64Value y ≠ v → M % 2 = 0) := by
  have hdist : |v - q| = |magnitudeValue M - (|q|)| := hv ▸ abs_withSign_sub q _
  rw [hdist]
  obtain ⟨hnear, heven⟩ := h (y.toNat % 2 ^ 63)
  rw [← abs_f64Value] at hnear heven
  have htri : |(|f64Value y|) - (|q|)| ≤ |f64Value y - q| := abs_abs_sub_abs_le _ _
  refine ⟨hnear.trans htri, fun htie hne => ?_⟩
  rcases eq_or_ne q 0 with rfl | hq
  · have := h.le_of_le (b := 0) (by simp)
    omega
  · refine heven (le_antisymm (htri.trans_eq htie) hnear) fun hm => hne ?_
    rw [hv, eq_withSign_of_dist_eq hq (by rw [abs_f64Value, hm]) htie]

theorem getLsbD_zero_withSign (negative : Bool) {m : Nat} (h : m < 2 ^ 63) (heven : m % 2 = 0) :
    (f64WithSign negative m).getLsbD 0 = false := by
  have hbits := toNat_f64WithSign negative h
  rw [BitVec.getLsbD, Nat.testBit_zero, hbits, decide_eq_false_iff_not]
  omega

theorem roundNearest_nearest {q : Rat} (h : |q| ≤ f64Value f64Largest) :
    f64Finite (roundNearest q) = true ∧ ∀ y : F64,
      |f64Value (roundNearest q) - q| ≤ |f64Value y - q| ∧
      (|f64Value y - q| = |f64Value (roundNearest q) - q| → f64Value y ≠ f64Value (roundNearest q) →
        (roundNearest q).getLsbD 0 = false) := by
  obtain ⟨M, hlt, hM, hr⟩ := roundNearest_eq_of_le_largest h
  have hM63 : M < 2 ^ 63 := hlt.trans (by decide)
  have hvalue := f64Value_withSign (decide (q < 0)) hM63
  simp only [decide_eq_true_eq] at hvalue
  rw [hr]
  refine ⟨f64Finite_withSign _ hlt, fun y => ?_⟩
  obtain ⟨hnear, heven⟩ := hM.withSign hvalue y
  exact ⟨hnear, fun htie hne => getLsbD_zero_withSign _ hM63 (heven htie hne)⟩

/-- `rne` faults above the finite range. -/
theorem rne_eq_error {q : Rat} (h : f64Value f64Largest < |q|) : rne q = .error .rneOutOfRange := by
  unfold rne; exact if_neg h.not_ge

/-! ## The operations on finite operands -/

section
variable {x y : F64} (hx : f64Finite x = true) (hy : f64Finite y = true)
include hx hy

theorem f64Add_finite (h : f64Value x + f64Value y ≠ 0) : f64Add x y = rne (f64Value x + f64Value y) := by
  simp [f64Add, f64IsNan_finite, hx, hy, h]

theorem f64Sub_finite (h : f64Value x - f64Value y ≠ 0) : f64Sub x y = rne (f64Value x - f64Value y) := by
  rw [sub_eq_add_neg, ← f64Value_neg] at h ⊢
  exact f64Add_finite hx ((f64Finite_neg y).trans hy) h

theorem f64Div_finite (hy0 : f64IsZero y = false) (hx0 : f64IsZero x = false) :
    f64Div x y = rne (f64Value x / f64Value y) := by
  simp [f64Div, f64IsNan_finite, hx, hy, hy0, hx0]

end

/-! ## Launch -/

theorem State.launch_refused {factor : Int} {kinds : Nat} {e : ParameterError}
    (h : (Config.parameters factor kinds).violation = some e) : State.launch factor kinds = .error e := by
  unfold State.launch
  split
  · rename_i hsome; rw [h] at hsome; cases hsome; rfl
  · rename_i hnone; rw [h] at hnone; cases hnone

theorem State.launch_legal {factor : Int} {kinds : Nat} (legal : Config.legal factor kinds = true) :
    State.launch factor kinds = .ok (State.resetWith factor kinds legal) := by
  have hpass : (Config.parameters factor kinds).violation = none := by simpa [Config.legal] using legal
  unfold State.launch
  split
  · rename_i hsome; rw [hpass] at hsome; cases hsome
  · rfl

/-! ## The statements -/

/-- Settles O52: the magnitude nearest to a magnitude is itself. -/
theorem rneOfRepresentable : Obligations.RneOfRepresentable := fun _ h =>
  rne_eq_ok.2 ⟨abs_f64Value_le_largest h, roundNearest_f64Value h⟩

/-- Settles O53, by the nearest magnitude at the sign of `q`. -/
theorem rneIsNearestEven : Obligations.RneIsNearestEven := by
  refine ⟨⟨rfl, fun _ => abs_f64Value_le_largest⟩, fun q h => ?_, fun _ => rne_eq_error, fun _ => roundNearest_overflow⟩
  obtain ⟨hfinite, hnearest⟩ := roundNearest_nearest h
  exact ⟨_, rne_eq_ok.2 ⟨h, rfl⟩, hfinite, fun y _ => hnearest y⟩

/-- Settles O54: on finite operands the special cases of IEEE 754 do not apply. -/
theorem operationsRoundOnce : Obligations.OperationsRoundOnce := fun _ _ hx hy =>
  ⟨f64Add_finite hx hy, f64Sub_finite hx hy, f64Div_finite hx hy⟩

/-- Settles O56: a launch answers by the check on its parameters. -/
theorem launchRefusesBrokenConstraints : Obligations.LaunchRefusesBrokenConstraints := by
  refine ⟨Parameters.violation_eq_none_iff, fun _ _ _ => State.launch_refused, fun factor kinds h1 h2 => ?_,
    fun factor _ h => State.launch_refused (Config.parameters_violation_kinds factor h), State.launch_legal _⟩
  exact ⟨_, State.launch_legal ((Config.legal_iff factor kinds).2 ⟨h1, h2⟩), List.length_replicate, rfl⟩

end Sys2Proof.Machine

/-! Proofs of the statements on the state: which instruction changes which group of it, its invariants, the ring as a list, the
device time, and what is hidden (10_state.md). -/

namespace Sys2Proof.Machine

/-! ## What a read error leaves -/

section
variable (s : State)

theorem State.readError_dec : s.readError.dec = { s.dec with
    errCount := s.dec.errCount + 1
    link := if s.dec.errCount + 1 < 10 then s.dec.link else .disconnected } := by rw [State.readError_eq]; rfl
@[simp] theorem State.readError_sp : s.readError.sp = s.sp := by rw [State.readError_eq]; rfl
@[simp] theorem State.readError_tare : s.readError.tare = s.tare := by rw [State.readError_eq]; rfl
@[simp] theorem State.readError_refused : s.readError.refused = s.refused := by rw [State.readError_eq]; rfl
@[simp] theorem State.readError_tareFactor : s.readError.tareFactor = s.tareFactor := by rw [State.readError_eq]; rfl

end

theorem serialRead_dataFrame (dir : Bool) (ts : Stamp) (arrival : Word) : (dataFrame dir ts arrival).serialRead = true := by
  cases dir <;> rfl

theorem addsReading_dataFrame (dir : Bool) (ts : Stamp) (arrival : Word) :
    (dataFrame dir ts arrival).addsReading = true := by
  cases dir <;> rfl

/-! ## What an instruction does to each group of the state -/

section
variable {i : Instr} {s t : State}

/-- Everything an instruction can do to the decoder. -/
theorem exec_dec (h : exec i s = .next t) :
    t.dec = s.dec ∨
    (i = .connect ∧ t.dec = { Decoder.reset with link := .connected }) ∨
    (i.serialRead = true ∧ s.dec.link = .connected ∧
      (t.dec = s.dec.clearErrors ∨ (∃ dir ts arrival, t.dec = s.dec.acceptFrame dir ts arrival) ∨
        (i = .rderr ∧ t = s.consume.readError))) := by
  rcases exec_cases h with ⟨-, -, rfl⟩ | ⟨rfl, rfl⟩ | ⟨_, -, -, rfl⟩ | ⟨_, _, rfl, hc, rfl⟩ |
    ⟨dir, ts, arrival, q, evs, rfl, hc, -, rfl⟩ | ⟨rfl, hc, rfl⟩ | ⟨_, _, _, _, _, _, -, -, rfl⟩ | ⟨_, _, -, -, rfl⟩ |
    ⟨-, rfl, -⟩ | ⟨_, -, rfl⟩ | ⟨-, rfl⟩
  -- the alternatives that leave the decoder
  any_goals exact .inl rfl
  · exact .inr (.inl ⟨rfl, rfl⟩)
  · exact .inr (.inr ⟨rfl, hc, .inl rfl⟩)
  · exact .inr (.inr ⟨serialRead_dataFrame dir ts arrival, hc, .inr (.inl ⟨dir, ts, arrival, rfl⟩)⟩)
  · exact .inr (.inr ⟨rfl, hc, .inr (.inr ⟨rfl, rfl⟩)⟩)

/-- Everything an instruction can do to the processor. -/
theorem exec_sp (h : exec i s = .next t) :
    t.sp = s.sp ∨
    (∃ kind value, i = .sensor kind value ∧ t.sp = s.sp.sensWrite kind value) ∨
    (i.addsReading = true ∧ ∃ r tare evs, s.sp.addReading s.tareFactor r tare = .ok (t.sp, evs)) := by
  rcases exec_cases h with ⟨-, -, rfl⟩ | ⟨-, rfl⟩ | ⟨_, -, -, rfl⟩ | ⟨_, _, -, -, rfl⟩ |
    ⟨dir, ts, arrival, q, evs, rfl, -, hq, rfl⟩ | ⟨-, -, rfl⟩ | ⟨_, _, _, _, q, evs, rfl, hq, rfl⟩ |
    ⟨kind, value, rfl, -, rfl⟩ | ⟨-, rfl, -⟩ | ⟨_, -, rfl⟩ | ⟨-, rfl⟩
  -- the alternatives that leave the processor
  any_goals exact .inl rfl
  · exact .inr (.inr ⟨addsReading_dataFrame dir ts arrival, _, _, evs, hq⟩)
  · exact .inl (State.readError_sp _)
  · exact .inr (.inr ⟨rfl, _, _, evs, hq⟩)
  · exact .inr (.inl ⟨kind, value, rfl, rfl⟩)

/-- Only TARE_SET writes the tare register, and nothing the factor. -/
theorem exec_tare (h : exec i s = .next t) :
    (t.tare = s.tare ∨ ∃ value, i = .tareSet value) ∧ t.tareFactor = s.tareFactor := by
  rcases exec_cases h with ⟨-, -, rfl⟩ | ⟨-, rfl⟩ | ⟨_, -, -, rfl⟩ | ⟨_, _, -, -, rfl⟩ | ⟨_, _, _, _, _, -, -, -, rfl⟩ |
    ⟨-, -, rfl⟩ | ⟨_, _, _, _, _, _, -, -, rfl⟩ | ⟨_, _, -, -, rfl⟩ | ⟨-, rfl, -⟩ | ⟨value, rfl, rfl⟩ | ⟨-, rfl⟩
  -- the alternatives that leave the register
  any_goals exact ⟨.inl rfl, rfl⟩
  · exact ⟨.inl (State.readError_tare _), State.readError_tareFactor _⟩
  · exact ⟨.inr ⟨value, rfl⟩, rfl⟩

end

/-- A step idles, or it is the instruction of the transaction it takes. -/
theorem step_cases {s s' : State} (h : step s = .next s') :
    (s.presented = none ∧ s' = s) ∨ ∃ t, s.presented = some t ∧ exec (decode t) s = .next s' := by
  unfold step at h
  split at h
  · rename_i hnone; cases h; exact .inl ⟨hnone, rfl⟩
  · rename_i t hsome; exact .inr ⟨t, hsome, h⟩

/-- What every instruction keeps, every step keeps. -/
theorem step_keeps {P : State → Prop} (hexec : ∀ {i s t}, exec i s = .next t → P s → P t) {s s' : State}
    (h : step s = .next s') (hs : P s) : P s' := by
  rcases step_cases h with ⟨-, rfl⟩ | ⟨t, -, ht⟩
  · exact hs
  · exact hexec ht hs

/-! ## The refusal mark -/

theorem classOf_serialRead {i : Instr} (kinds : Nat) (h : i.serialRead = true) : i.classOf kinds ≠ .refused := by
  cases i <;> simp_all [Instr.serialRead, Instr.classOf]

/-- The mark is set by the class REFUSED and by nothing else. -/
theorem exec_refused {i : Instr} {s t : State} (h : exec i s = .next t) :
    (i.classOf s.sp.sens.length = .refused ∧ t.refused = true) ∨
      (i.classOf s.sp.sens.length ≠ .refused ∧ t.refused = s.refused) := by
  rcases exec_cases h with ⟨hi, -, rfl⟩ | ⟨rfl, rfl⟩ | ⟨_, rfl, -, rfl⟩ | ⟨_, _, rfl, -, rfl⟩ |
    ⟨dir, ts, arrival, _, _, rfl, -, -, rfl⟩ | ⟨rfl, -, rfl⟩ | ⟨_, _, _, _, _, _, rfl, -, rfl⟩ |
    ⟨kind, value, rfl, hk, rfl⟩ | ⟨hi, rfl, -⟩ | ⟨_, rfl, rfl⟩ | ⟨rfl, rfl⟩
  · exact .inr ⟨classOf_serialRead _ hi, rfl⟩
  · exact .inr ⟨nofun, rfl⟩
  · exact .inr ⟨nofun, rfl⟩
  · exact .inr ⟨nofun, rfl⟩
  · exact .inr ⟨classOf_serialRead _ (serialRead_dataFrame dir ts arrival), rfl⟩
  · exact .inr ⟨nofun, State.readError_refused _⟩
  · exact .inr ⟨nofun, rfl⟩
  · exact .inr ⟨by simpa [Instr.classOf, Processor.hasKind] using hk, rfl⟩
  · exact .inl ⟨hi, rfl⟩
  · exact .inr ⟨nofun, rfl⟩
  · exact .inr ⟨nofun, rfl⟩

/-- Settles O39, from what an instruction does to the mark. -/
theorem refusedIsSticky : Obligations.RefusedIsSticky := by
  refine ⟨rfl, fun i s t h => ?_⟩
  rcases exec_refused h with ⟨hi, ht⟩ | ⟨hi, ht⟩ <;> simp [hi, ht]

/-! ## The decoder's invariant -/

theorem errLimit_pos : 0 < Config.errLimit := by decide

theorem Decoder.inv_clearErrors {d : Decoder} (h : d.inv) : d.clearErrors.inv :=
  ⟨Nat.zero_le _, fun _ => errLimit_pos, h.2.2⟩

/-- A frame that is accepted leaves no error and synchronises. -/
theorem Decoder.inv_acceptFrame (d : Decoder) (dir : Bool) (ts : Stamp) (arrival : Word) :
    (d.acceptFrame dir ts arrival).inv := by
  rw [Decoder.acceptFrame_eq]
  exact ⟨Nat.zero_le _, fun _ => errLimit_pos, nofun⟩

/-- Over a link that is up there is room for one more error, and the tenth takes the link down. -/
theorem State.inv_readError {s : State} (h : s.dec.inv) (hc : s.dec.link = .connected) : s.readError.dec.inv := by
  obtain ⟨-, hup, hsync⟩ := h
  have hlt := hup hc
  rw [State.readError_dec]
  refine ⟨hlt, fun hlink => ?_, hsync⟩
  by_contra hge
  exact absurd ((if_neg hge).symm.trans hlink) nofun

theorem exec_decInv {i : Instr} {s t : State} (h : exec i s = .next t) (hs : s.dec.inv) : t.dec.inv := by
  rcases exec_dec h with hd | ⟨-, hd⟩ | ⟨-, hc, hd | ⟨dir, ts, arrival, hd⟩ | ⟨-, rfl⟩⟩
  · rwa [hd]
  · rw [hd]; decide
  · rw [hd]; exact Decoder.inv_clearErrors hs
  · rw [hd]; exact Decoder.inv_acceptFrame _ _ _ _
  · exact State.inv_readError hs hc

/-- Settles O47: every instruction keeps the invariant. -/
theorem decoderInvariantKept : Obligations.DecoderInvariantKept := fun _ _ hs h => step_keeps exec_decInv h hs

/-! ## The link -/

/-- Only CONNECT and the breaker change the link. -/
theorem exec_link {i : Instr} {s t : State} (h : exec i s = .next t) (hl : t.dec.link ≠ s.dec.link) :
    (s.dec.link = .disconnected ∧ i = .connect) ∨
    (s.dec.link = .connected ∧ i = .rderr ∧ Config.errLimit ≤ s.dec.errCount + 1 ∧
      t.out = s.out ++ [.status .error true, .status .disconnected false]) := by
  rcases exec_dec h with hd | ⟨rfl, hd⟩ | ⟨-, hc, hd | ⟨dir, ts, arrival, hd⟩ | ⟨rfl, rfl⟩⟩
  · exact absurd (congrArg Decoder.link hd) hl
  · refine .inl ⟨?_, rfl⟩
    rw [hd] at hl
    cases hs : s.dec.link with
    | disconnected => rfl
    | connected => exact absurd hs.symm hl
  · exact absurd (congrArg Decoder.link hd) hl
  · exact absurd (by rw [hd, Decoder.acceptFrame_eq]) hl
  · have hge : ¬ s.dec.errCount + 1 < 10 := fun hlt => hl (by simp [State.readError_dec, hlt])
    exact .inr ⟨hc, rfl, not_lt.1 hge, by simp [State.readError_eq, hge]⟩

/-- Settles O46: an idle step changes nothing, and any other is an instruction. -/
theorem linkTransitions : Obligations.LinkTransitions := by
  intro s s' h hl
  rcases step_cases h with ⟨-, rfl⟩ | ⟨t, hp, ht⟩
  · exact absurd rfl hl
  · exact ⟨t, hp, exec_link ht hl⟩

/-! ## The invariants of the processor -/

section
variable {P : Processor → Prop}

/-- What a write to the bank and AddReading keep, every instruction keeps. -/
theorem exec_keeps_sp (hsens : ∀ p kind value, P p → P (p.sensWrite kind value))
    (hadd : ∀ {p q factor r tare evs}, p.addReading factor r tare = .ok (q, evs) → P p → P q)
    {i : Instr} {s t : State} (h : exec i s = .next t) (hs : P s.sp) : P t.sp := by
  rcases exec_sp h with hp | ⟨kind, value, -, hp⟩ | ⟨-, r, tare, evs, hp⟩
  · rwa [hp]
  · rw [hp]; exact hsens _ kind value hs
  · exact hadd hp hs

/-- And so every step. -/
theorem step_keeps_sp (hsens : ∀ p kind value, P p → P (p.sensWrite kind value))
    (hadd : ∀ {p q factor r tare evs}, p.addReading factor r tare = .ok (q, evs) → P p → P q)
    {s s' : State} (h : step s = .next s') (hs : P s.sp) : P s'.sp :=
  step_keeps (P := fun s => P s.sp) (exec_keeps_sp hsens hadd) h hs

end

/-- No instruction changes the number of sensor kinds. -/
theorem exec_sens_length {i : Instr} {s t : State} (h : exec i s = .next t) : t.sp.sens.length = s.sp.sens.length := by
  refine exec_keeps_sp (P := fun p => p.sens.length = s.sp.sens.length) (fun p kind value hp => ?_) (fun hq hp => ?_) h rfl
  · rwa [Processor.sensWrite_length]
  · obtain ⟨-, -, -, hsens, -⟩ := Processor.addReading_spec _ hq
    rwa [hsens]

section
variable {p q : Processor} {factor : Int} {r : Reading} {tare : Word} {evs : List Event}

theorem Processor.ringInv_addReading (h : p.addReading factor r tare = .ok (q, evs)) (hp : p.ringInv) : q.ringInv := by
  obtain ⟨-, hwr, hn, -⟩ := p.addReading_spec h
  have hw := p.ringInv_histWrite ⟨r.total, tareAdjusted factor r.count tare, r.drift⟩ hp
  rw [Processor.ringInv, hwr, hn]
  exact hw

theorem Processor.floatBounds_addReading (h : p.addReading factor r tare = .ok (q, evs)) (hp : p.floatBounds) :
    q.floatBounds := by
  obtain ⟨-, -, -, -, -, hkeep, -⟩ := p.addReading_spec h
  exact hkeep hp

end

/-- Settles O45, from what an instruction does to each group. -/
theorem stateOwnership : Obligations.StateOwnership := by
  intro i s t h
  obtain ⟨htare, hfactor⟩ := exec_tare h
  refine ⟨fun hd => ?_, fun hsp => ?_, fun hsens => ?_, htare.resolve_left, hfactor, exec_sens_length h⟩
  · rcases exec_dec h with hd' | ⟨hi, -⟩ | ⟨hi, hc, -⟩
    · exact absurd hd' hd
    · exact .inl hi
    · exact .inr ⟨hi, hc⟩
  · rcases exec_sp h with hp | ⟨kind, value, -, hp⟩ | ⟨hi, -⟩
    · exact absurd (by rw [hp]) hsp
    · exact absurd (by rw [hp]; rfl) hsp
    · exact hi
  · rcases exec_sp h with hp | ⟨kind, value, hi, -⟩ | ⟨-, r, tare, evs, hp⟩
    · exact absurd (by rw [hp]) hsens
    · exact ⟨kind, value, hi⟩
    · obtain ⟨-, -, -, hkeep, -⟩ := s.sp.addReading_spec hp
      exact absurd hkeep hsens

/-- Settles O48: every instruction keeps the form of the ring and the length of the bank. -/
theorem ringInvariantKept : Obligations.RingInvariantKept := fun _ _ hr hb h =>
  ⟨step_keeps_sp (fun _ _ _ hp => hp) Processor.ringInv_addReading h hr,
    step_keeps (P := fun s => s.sp.bankInv) (fun ht hs => by rwa [Processor.bankInv, exec_sens_length ht]) h hb⟩

/-! ## The ring as a list -/

/-- The list of the filled entries, entry by entry, is what the ring answers a read. -/
theorem Processor.getElem?_recent (p : Processor) (k : Nat) : p.recent[k]? = (p.histRead (k + 1)).toOption := by
  have hmap : p.recent = (List.range p.nfill).map fun k =>
      p.hist[(p.wr.val + Config.histN - (k + 1)) % Config.histN]'(Nat.mod_lt _ (by decide)) := by
    rw [Processor.recent, ← List.filterMap_eq_map]
    refine List.filterMap_congr fun k hk => ?_
    rw [p.histRead_ok (Nat.le_add_left 1 k) (List.mem_range.1 hk)]
    rfl
  rw [hmap, List.getElem?_map]
  rcases Nat.lt_or_ge k p.nfill with hk | hk
  · rw [List.getElem?_range hk, p.histRead_ok (Nat.le_add_left 1 k) hk]
    rfl
  · rw [List.getElem?_eq_none (by simpa using hk), p.histRead_unfilled (Nat.lt_succ_of_le hk)]
    rfl

/-- Two rings that answer the same reads are the same list. -/
theorem Processor.recent_congr {p q : Processor} (h : ∀ k, q.histRead k = p.histRead k) : q.recent = p.recent :=
  List.ext_getElem? fun k => by rw [Processor.getElem?_recent, Processor.getElem?_recent, h]

/-- A write puts its entry in front of the list and drops the entry beyond the capacity. -/
theorem Processor.recent_histWrite (p : Processor) (e : Reading) :
    (p.histWrite e).recent = (e :: p.recent).take Config.histN := by
  refine List.ext_getElem? fun k => ?_
  rw [Processor.getElem?_recent]
  rcases Nat.lt_or_ge k Config.histN with hk | hk
  · rw [List.getElem?_take_of_lt hk]
    cases k with
    | zero => rw [p.histRead_one_histWrite e]; rfl
    | succ k =>
      rw [List.getElem?_cons_succ, Processor.getElem?_recent]
      rcases Nat.lt_or_ge k p.nfill with hf | hf
      · rw [p.histRead_succ_histWrite e (Nat.le_add_left 1 k) hk hf]
      · rw [p.histRead_unfilled (Nat.lt_succ_of_le hf), Processor.histRead_unfilled _ (by simp; omega)]
        rfl
  · rw [List.getElem?_eq_none ((List.length_take_le _ _).trans hk), Processor.histRead_unfilled _ (by simp; omega)]
    rfl

theorem Processor.recent_addReading {p q : Processor} {factor : Int} {r : Reading} {tare : Word} {evs : List Event}
    (h : p.addReading factor r tare = .ok (q, evs)) :
    q.recent = (⟨r.total, tareAdjusted factor r.count tare, r.drift⟩ :: p.recent).take Config.histN := by
  obtain ⟨-, -, -, -, hreads, -⟩ := p.addReading_spec h
  rw [Processor.recent_congr hreads, p.recent_histWrite]

theorem State.recent_resetWith (factor : Int) (kinds : Nat) (legal : Config.legal factor kinds = true) :
    (State.resetWith factor kinds legal).sp.recent = [] := rfl

theorem State.launch_ok {factor : Int} {kinds : Nat} {s : State} (h : State.launch factor kinds = .ok s) :
    ∃ legal, s = State.resetWith factor kinds legal := by
  unfold State.launch at h
  split at h
  · cases h
  · cases h; exact ⟨_, rfl⟩

theorem Link.eq_disconnected {l : Link} (h : l ≠ .connected) : l = .disconnected := by
  cases l with
  | disconnected => rfl
  | connected => exact absurd rfl h

/-- A held data frame changes nothing. -/
theorem exec_dataFrame_held (dir : Bool) (ts : Stamp) (arrival : Word) (s : State) (h : s.dec.link = .disconnected) :
    exec (dataFrame dir ts arrival) s = .next s := by
  cases dir <;> simp [dataFrame, exec, execFrameDataPos, execFrameDataNeg, State.serial_disconnected, h]

section
variable {s t : State}

/-- A transaction that adds no Reading leaves the list. -/
theorem exec_recent_of_not_addsReading {i : Instr} (h : exec i s = .next t) (hi : i.addsReading = false) :
    t.sp.recent = s.sp.recent := by
  rcases exec_sp h with hp | ⟨kind, value, -, hp⟩ | ⟨hadds, -⟩
  · rw [hp]
  · rw [hp]; exact Processor.recent_congr fun _ => rfl
  · rw [hi] at hadds; cases hadds

theorem exec_spAdd_recent {total count drift tare : Word}
    (h : exec (.spAdd total count drift tare) s = .next t) :
    t.sp.recent = (⟨total, tareAdjusted s.tareFactor count tare, drift⟩ :: s.sp.recent).take Config.histN := by
  rcases exec_spAdd_eq total count drift tare s with ⟨q, evs, hq, ht⟩ | hf
  · rw [ht] at h; cases h
    exact Processor.recent_addReading hq
  · rw [hf] at h; cases h

/-- An accepted data frame puts the reading it emits in front, tared with the register; a held one leaves the list. -/
theorem exec_dataFrame_recent {dir : Bool} {ts : Stamp} {arrival : Word}
    (h : exec (dataFrame dir ts arrival) s = .next t) :
    if s.dec.link = .connected then
      ∃ r evs, t.out = s.out ++ .reading r :: evs ∧
        t.sp.recent = (⟨r.total, tareAdjusted s.tareFactor r.count s.tare, r.drift⟩ :: s.sp.recent).take Config.histN
    else t.sp.recent = s.sp.recent := by
  split
  · rename_i hc
    rcases exec_dataFrame_eq dir ts arrival s hc with ⟨q, evs, hq, ht⟩ | hf
    · rw [ht] at h; cases h
      exact ⟨_, evs, rfl, Processor.recent_addReading hq⟩
    · rw [hf] at h; cases h
  · rename_i hc
    rw [exec_dataFrame_held _ _ _ _ (Link.eq_disconnected hc)] at h
    cases h; rfl

end

/-- Settles O27 (for every fill count): each transaction that adds a Reading writes the ring once, and no other touches it. -/
theorem ringHoldsLastReadings : Obligations.RingHoldsLastReadings := by
  refine ⟨?_, fun s s' _ h => ?_⟩
  · rintro s (rfl | ⟨factor, kinds, hs⟩)
    · exact State.recent_resetWith _ _ (Config.legal_sensorKinds _)
    · obtain ⟨legal, rfl⟩ := State.launch_ok hs
      exact State.recent_resetWith _ _ legal
  · rcases step_cases h with ⟨hp, rfl⟩ | ⟨u, hp, ht⟩ <;> rw [hp]
    · rfl
    · rw [Option.map_some]
      generalize decode u = i at ht
      exact match i, ht with
      | .spAdd _ _ _ _, ht => exec_spAdd_recent ht
      | .frameDataPos ts arrival, ht => exec_dataFrame_recent (dir := true) ht
      | .frameDataNeg ts arrival, ht => exec_dataFrame_recent (dir := false) ht
      | .reservedZero, ht | .connect, ht | .frameSentinel _, ht | .frameBadcsum _ _, ht | .rderr, ht | .sensor _ _, ht
      | .tareSet _, ht | .tareGet, ht | .reservedHigh _, ht => exec_recent_of_not_addsReading ht rfl

/-! ## Half-periods are positive -/

theorem f64IsZero_of_value_ne {x : F64} (h : f64Value x ≠ 0) : f64IsZero x = false := by
  rw [Bool.eq_false_iff, ne_eq, f64IsZero_iff]
  intro h0
  have habs := abs_f64Value x
  rw [h0, magnitudeValue_zero, abs_eq_zero] at habs
  exact h habs

theorem f64Positive_of_value_pos {x : F64} (hx : f64Finite x = true) (h : 0 < f64Value x) : f64Positive x = true := by
  have hmsb : x.msb = false := by
    rw [Bool.eq_false_iff]
    intro hneg
    rw [f64Value_eq, if_pos hneg] at h
    linarith [magnitudeValue_nonneg (x.toNat % 2 ^ 63)]
  rw [f64Positive, hmsb, f64IsNan_finite hx, f64IsZero_of_value_ne h.ne']
  rfl

/-- Rounding does not go below a magnitude. -/
theorem magnitudeValue_le_roundNearest {q : Rat} {m : Nat} (hm : magnitudeValue m ≤ q) (hq : |q| ≤ f64Value f64Largest) :
    magnitudeValue m ≤ f64Value (roundNearest q) := by
  have h0 : 0 ≤ q := (magnitudeValue_nonneg m).trans hm
  obtain ⟨M, hlt, hM, hr⟩ := roundNearest_eq_of_le_largest hq
  rw [abs_of_nonneg h0] at hM
  rw [hr, f64Value_withSign _ (hlt.trans (by decide)), decide_eq_false h0.not_gt]
  exact magnitudeValue_strictMono.monotone (hM.ge_of_ge hm)

/-- The magnitude bits of 2^16 and of 2^-4. -/
theorem magnitudeValue_65536 : magnitudeValue 0x40F0000000000000 = 65536 := by decide +kernel

theorem magnitudeValue_sixteenth : magnitudeValue 0x3FB0000000000000 = 1 / 16 := by decide +kernel

/-- A half-period from the debounce bound up is positive: the difference rounds to 2^16 or more, and the quotient to 2^-4 or more
(41_signal_processor.md R159). -/
theorem halfPeriod_positive {delta : Int} {half : F64} (h1 : Config.debounceUs ≤ delta) (hbounded : f64Bounded half)
    (h : halfPeriod delta = .ok half) : f64Positive half = true := by
  have hdelta : (100000 : Rat) ≤ delta := by exact_mod_cast h1
  unfold halfPeriod at h
  split at h
  · cases h
  · rename_i x hx
    obtain ⟨hrange, rfl⟩ := rne_eq_ok.1 hx
    have hfinite := (roundNearest_nearest hrange).1
    have hvalue : (65536 : Rat) ≤ f64Value (roundNearest delta) := by
      rw [← magnitudeValue_65536]
      exact magnitudeValue_le_roundNearest (by rw [magnitudeValue_65536]; linarith) hrange
    have hnonzero : f64IsZero (roundNearest delta) = false := f64IsZero_of_value_ne (by linarith)
    rw [f64Div_finite hfinite (by decide) (by decide) hnonzero] at h
    obtain ⟨hrange', rfl⟩ := rne_eq_ok.1 h
    have hquotient : (1 : Rat) / 16 ≤ f64Value (roundNearest (f64Value (roundNearest delta) / f64Value f64Million)) := by
      rw [← magnitudeValue_sixteenth]
      refine magnitudeValue_le_roundNearest ?_ hrange'
      rw [magnitudeValue_sixteenth, f64Value_million, le_div_iff₀ (by norm_num)]
      linarith
    exact f64Positive_of_value_pos hbounded.1 (by linarith)

/-- A half-period is +0.0 or positive, and none is known before a crossing was accepted. -/
def Processor.halvesInv (p : Processor) : Prop :=
  (p.posHalf = 0 ∨ f64Positive p.posHalf = true) ∧ (p.negHalf = 0 ∨ f64Positive p.negHalf = true) ∧
    (p.lastZc.valid = false → p.posHalf = 0 ∧ p.negHalf = 0)

theorem Processor.floatInv_iff (p : Processor) : p.floatInv ↔ p.floatBounds ∧ p.halvesInv := Iff.rfl

section
variable {p q : Processor}

/-- A crossing outside the debounce window has a positive half-period. -/
theorem Processor.halvesInv_crossBetween {prev cur : Reading} {a : Option Bool} (hp : p.halvesInv)
    (h : p.crossBetween prev cur = .ok (q, a)) : q.halvesInv := by
  rcases p.crossBetween_cases prev cur with ⟨b, half, -, hd, hhalf, hb, hq⟩ | ⟨-, hq⟩
  · rw [hq] at h; cases h
    obtain ⟨hpos, hneg, -⟩ := hp
    cases hv : p.lastZc.valid with
    | false => exact ⟨hpos, hneg, nofun⟩
    | true =>
      have hgap : Config.debounceUs ≤ timeOf cur - asS64 p.lastZc.time := by
        simpa [Processor.debounced, hv] using hd
      have hhalfPos := halfPeriod_positive hgap hb hhalf
      cases b
      · exact ⟨hpos, .inr hhalfPos, nofun⟩
      · exact ⟨.inr hhalfPos, hneg, nofun⟩
  · rw [hq] at h; cases h; exact hp

theorem Processor.halvesInv_peakWindow {e1 e2 e3 : Reading} (hp : p.halvesInv)
    (h : p.peakWindow e1 e2 e3 = .ok q) : q.halvesInv := by
  obtain ⟨q', hq, -, -, -, hzc, hpos, hneg, -⟩ := p.peakWindow_ok e1 e2 e3
  rw [hq] at h; cases h
  rwa [Processor.halvesInv, hzc, hpos, hneg]

/-- The record step leaves the processor. -/
theorem Processor.map_cycleEvents_ok {p' : Processor} {a : Option Bool} {r : Reading} {evs : List Event}
    (h : (p.cycleEvents a r).map (fun events => (p, events)) = .ok (p', evs)) : p' = p := by
  cases hc : p.cycleEvents a r with
  | error f => rw [hc] at h; cases h
  | ok events => rw [hc] at h; cases h; rfl

theorem Processor.halvesInv_addReading {factor : Int} {r : Reading} {tare : Word} {evs : List Event}
    (h : p.addReading factor r tare = .ok (q, evs)) (hp : p.halvesInv) : q.halvesInv := by
  obtain ⟨cur, -, ⟨-, hq⟩ | ⟨prev, c, a, -, -, hcross, hq⟩ | ⟨e1, e2, c, a, c', -, -, -, hcross, hpeak, hq⟩⟩ :=
    p.addReading_cases factor r tare
  · rw [hq] at h; cases h; exact hp
  · rw [hq] at h
    rw [Processor.map_cycleEvents_ok h]
    exact Processor.halvesInv_crossBetween (p := p.histWrite cur) hp hcross
  · rw [hq] at h
    rw [Processor.map_cycleEvents_ok h]
    exact Processor.halvesInv_peakWindow (Processor.halvesInv_crossBetween (p := p.histWrite cur) hp hcross) hpeak

end

/-- Settles O49: every instruction keeps the bounds, and the signs of the half-periods. -/
theorem storedFloatsFinite : Obligations.StoredFloatsFinite := by
  have hbounds : ∀ s s' : State, s.sp.floatBounds → step s = .next s' → s'.sp.floatBounds := fun _ _ hs h =>
    step_keeps_sp (fun _ _ _ hp => hp) Processor.floatBounds_addReading h hs
  refine ⟨hbounds, fun s s' hs h => ?_⟩
  rw [Processor.floatInv_iff] at hs ⊢
  exact ⟨hbounds s s' hs.1 h, step_keeps_sp (fun _ _ _ hp => hp) Processor.halvesInv_addReading h hs.2⟩

/-! ## The device time -/

section
variable {d : Decoder} (dir : Bool) (ts : Stamp) {arrival : Word}

/-- A resynchronisation anchors at the frame itself. -/
theorem Decoder.acceptFrame_resync (hs : d.synced = true) (hgap : 60000000 < (arrival - d.lastArrival).toInt) :
    (d.acceptFrame dir ts arrival).firstDev.toNat =
      (d.acceptFrame dir ts arrival).ovfCount.toNat * 2 ^ 32 + (d.acceptFrame dir ts arrival).lastTs.toNat := by
  simp [Decoder.acceptFrame_eq, hs, hgap, -BitVec.toInt_sub, toNat_append_stamp]

/-- Without one the anchor stays, and a decreasing timestamp counts one wrap. -/
theorem Decoder.acceptFrame_noResync (hs : d.synced = true) (hgap : ¬ 60000000 < (arrival - d.lastArrival).toInt) :
    (d.acceptFrame dir ts arrival).firstDev = d.firstDev ∧ (d.acceptFrame dir ts arrival).lastTs = ts ∧
      (d.acceptFrame dir ts arrival).ovfCount = if ts.toNat < d.lastTs.toNat then d.ovfCount + 1 else d.ovfCount := by
  simp [Decoder.acceptFrame_eq, hs, hgap, -BitVec.toInt_sub]

end

theorem toNat_add_one_stamp {n : Stamp} (h : n.toNat + 1 < 2 ^ 32) : (n + 1).toNat = n.toNat + 1 := by
  rw [BitVec.toNat_add]; exact Nat.mod_eq_of_lt h

/-- Settles O22: at a resynchronisation the anchor is the frame; otherwise the anchor stays and the device time does not decrease. -/
theorem cumulativeTimeMonotone : Obligations.CumulativeTimeMonotone := by
  intro dir ts arrival s hc hb hs hanchor hovf
  obtain ⟨q, evs, -, hnext⟩ := exec_dataFrame_next dir ts arrival s hc hb
  refine ⟨_, hnext, ?_⟩
  simp only [State.emit_dec, State.withSp_dec, State.withDec_dec]
  by_cases hgap : 60000000 < (arrival - s.dec.lastArrival).toInt
  · exact ⟨(Decoder.acceptFrame_resync dir ts hs hgap).le, fun h => absurd hgap h⟩
  · obtain ⟨hdev, hts, hcount⟩ := Decoder.acceptFrame_noResync dir ts hs hgap
    rw [hdev, hts, hcount]
    by_cases hwrap : ts.toNat < s.dec.lastTs.toNat
    · rw [if_pos hwrap, toNat_add_one_stamp hovf]
      have hlater : s.dec.ovfCount.toNat * 2 ^ 32 + s.dec.lastTs.toNat <
          (s.dec.ovfCount.toNat + 1) * 2 ^ 32 + ts.toNat := by
        have := s.dec.lastTs.isLt
        omega
      exact ⟨hanchor.trans hlater.le, fun _ => ⟨hlater.le, fun _ => ⟨rfl, hlater⟩, fun h => absurd hwrap h.not_gt⟩⟩
    · rw [if_neg hwrap]
      have hlater := Nat.add_le_add_left (not_lt.1 hwrap) (s.dec.ovfCount.toNat * 2 ^ 32)
      exact ⟨hanchor.trans hlater, fun _ => ⟨hlater, fun h => absurd h hwrap, fun _ => rfl⟩⟩

/-! ## What is hidden -/

/-- The processor with the ring, the cursor and the peaks' times blanked: what is left of it is visible, but for the ring's newest
two entries (10_state.md R50). -/
def Processor.visible (p : Processor) : Processor :=
  { p with
    hist := Vector.replicate Config.histN ⟨0, 0, 0⟩
    wr := ⟨0, by decide⟩
    posPeak := { p.posPeak with time := 0 }
    negPeak := { p.negPeak with time := 0 } }

/-- Two processors that differ at most in what is hidden. -/
structure Processor.SameVisible (p p' : Processor) : Prop where
  visible : p'.visible = p.visible
  newest : p'.histRead 1 = p.histRead 1
  second : p'.histRead 2 = p.histRead 2

theorem Processor.visible_eq_iff (p p' : Processor) : p'.visible = p.visible ↔
    p'.nfill = p.nfill ∧ p'.posPeak.valid = p.posPeak.valid ∧ p'.posPeak.position = p.posPeak.position ∧
      p'.negPeak.valid = p.negPeak.valid ∧ p'.negPeak.position = p.negPeak.position ∧ p'.lastZc = p.lastZc ∧
      p'.posHalf = p.posHalf ∧ p'.negHalf = p.negHalf ∧ p'.sens = p.sens := by
  simp only [Processor.visible, Processor.mk.injEq, Peak.mk.injEq, true_and, and_assoc]

/-- The observable state is the state but for the processor, and of the processor what is visible. -/
theorem State.sameObservable_iff (s s' : State) :
    s.sameObservable s' ↔ s' = s.withSp s'.sp ∧ s.sp.SameVisible s'.sp := by
  constructor
  · rintro ⟨hdec, htare, hrefused, hfactor, hport, hout, hn, h1, h2, hrest⟩
    refine ⟨?_, (Processor.visible_eq_iff _ _).2 ⟨hn, hrest⟩, h1, h2⟩
    rw [State.withSp, ← hdec, ← htare, ← hrefused, ← hfactor, ← hport, ← hout]
  · rintro ⟨hs, hv, h1, h2⟩
    obtain ⟨hn, hrest⟩ := (Processor.visible_eq_iff _ _).1 hv
    rw [hs]
    exact ⟨rfl, rfl, rfl, rfl, rfl, rfl, hn, h1, h2, hrest⟩

theorem State.sameObservable_withSp (s : State) {p' : Processor} (h : s.sp.SameVisible p') :
    s.sameObservable (s.withSp p') :=
  (State.sameObservable_iff _ _).2 ⟨rfl, h⟩

/-! ### AddReading does not see it -/

theorem Processor.visible_acceptCrossing (p : Processor) (cur : Reading) (rising : Bool) :
    p.visible.acceptCrossing cur rising = (p.acceptCrossing cur rising).map Processor.visible := by
  have hzc : p.visible.lastZc = p.lastZc := rfl
  unfold Processor.acceptCrossing
  rw [hzc]
  split
  · cases halfPeriod (timeOf cur - asS64 p.lastZc.time) <;> rfl
  · rfl

/-- The crossing test reads and writes visible fields only. -/
theorem Processor.visible_crossBetween (p : Processor) (prev cur : Reading) :
    p.visible.crossBetween prev cur = (p.crossBetween prev cur).map (Prod.map Processor.visible id) := by
  have hdebounced : p.visible.debounced (timeOf cur) = p.debounced (timeOf cur) := rfl
  unfold Processor.crossBetween
  rw [hdebounced]
  split
  · rfl
  · split
    · rfl
    · rw [Processor.visible_acceptCrossing]
      cases p.acceptCrossing cur _ <;> rfl

/-- The peak test reads nothing of the processor, and the peak's time it writes is hidden. -/
theorem Processor.visible_peakWindow (p : Processor) (e1 e2 e3 : Reading) :
    (p.visible.peakWindow e1 e2 e3).map Processor.visible = (p.peakWindow e1 e2 e3).map Processor.visible := by
  unfold Processor.peakWindow
  dsimp only
  split
  · split
    · rename_i v _; cases v.toPeak <;> rfl
    · rfl
  · split
    · split
      · rename_i v _; cases v.toPeak <;> rfl
      · rfl
    · rfl

/-- The record is made of visible fields. -/
theorem Processor.visible_cycleEvents (p : Processor) (a : Option Bool) (r : Reading) :
    p.visible.cycleEvents a r = p.cycleEvents a r := rfl

section
variable {p p' : Processor}

theorem Processor.visible_histWrite (h : p'.visible = p.visible) (e : Reading) :
    (p'.histWrite e).visible = (p.histWrite e).visible := by
  obtain ⟨hn, hrest⟩ := (Processor.visible_eq_iff _ _).1 h
  exact (Processor.visible_eq_iff _ _).2 ⟨congrArg (fun n => min Config.histN (n + 1)) hn, hrest⟩

theorem Processor.crossBetween_sameVisible (h : p'.visible = p.visible) {prev cur : Reading} {q q' : Processor}
    {a a' : Option Bool} (hq : p.crossBetween prev cur = .ok (q, a)) (hq' : p'.crossBetween prev cur = .ok (q', a')) :
    q'.visible = q.visible ∧ a' = a := by
  have hmap := p'.visible_crossBetween prev cur
  rw [h, p.visible_crossBetween, hq, hq'] at hmap
  injection hmap with hpair
  injection hpair with hvisible ha
  exact ⟨hvisible.symm, ha.symm⟩

theorem Processor.peakWindow_sameVisible (h : p'.visible = p.visible) {e1 e2 e3 : Reading} {q q' : Processor}
    (hq : p.peakWindow e1 e2 e3 = .ok q) (hq' : p'.peakWindow e1 e2 e3 = .ok q') : q'.visible = q.visible := by
  have hmap := p'.visible_peakWindow e1 e2 e3
  rw [h, p.visible_peakWindow, hq, hq'] at hmap
  injection hmap with hvisible
  exact hvisible.symm

/-- Up to the record AddReading keeps the visible part equal: it reads the newest two entries. -/
theorem Processor.addReading_sameVisible_shape (h : p.SameVisible p') (factor : Int) (r : Reading) (tare : Word) :
    ∃ (q q' : Processor) (a : Option Bool), q'.visible = q.visible ∧
      p.addReading factor r tare = (q.cycleEvents a r).map (fun events => (q, events)) ∧
      p'.addReading factor r tare = (q'.cycleEvents a r).map (fun events => (q', events)) := by
  obtain ⟨hv, h1, h2⟩ := h
  have hn := ((Processor.visible_eq_iff _ _).1 hv).1
  have hwrite := Processor.visible_histWrite hv ⟨r.total, tareAdjusted factor r.count tare, r.drift⟩
  rcases p.addReading_cases factor r tare with ⟨_, rfl, ⟨hfill, hadd⟩ | ⟨prev, q, a, hfill, hr1, hcross, hadd⟩ |
    ⟨e1, e2, c, a, q, hfill, hr2, hr1, hcross, hpeak, hadd⟩⟩
  · exact ⟨_, _, none, hwrite, hadd, p'.addReading_first factor r tare (hn.trans hfill)⟩
  · obtain ⟨q', a', hcross', hadd'⟩ := p'.addReading_second factor r tare (hn.trans hfill) rfl (h1.trans hr1)
    obtain ⟨hq, rfl⟩ := Processor.crossBetween_sameVisible hwrite hcross hcross'
    exact ⟨q, q', _, hq, hadd, hadd'⟩
  · obtain ⟨c', a', q', hcross', hpeak', hadd'⟩ :=
      p'.addReading_later factor r tare (hfill.trans_eq hn.symm) rfl (h2.trans hr2) (h1.trans hr1)
    obtain ⟨hc, rfl⟩ := Processor.crossBetween_sameVisible hwrite hcross hcross'
    exact ⟨q, q', _, Processor.peakWindow_sameVisible hc hpeak hpeak', hadd, hadd'⟩

/-- After a write the newest two entries are the one written and the newest before it. -/
theorem Processor.SameVisible.histRead_two_histWrite (h : p.SameVisible p') (e : Reading) :
    (p'.histWrite e).histRead 2 = (p.histWrite e).histRead 2 := by
  have hn := ((Processor.visible_eq_iff _ _).1 h.visible).1
  rcases Nat.eq_zero_or_pos p.nfill with h0 | hpos
  · rw [Processor.histRead_unfilled _ (by simp [hn, h0]), Processor.histRead_unfilled _ (by simp [h0])]
  · rw [p.histRead_succ_histWrite e le_rfl (by decide) hpos, p'.histRead_succ_histWrite e le_rfl (by decide) (hn ▸ hpos),
      h.newest]

/-- AddReading does not see what is hidden: it answers alike, and what it leaves differs in no more. -/
theorem Processor.SameVisible.addReading (h : p.SameVisible p') (factor : Int) (r : Reading) (tare : Word) :
    (∃ q q' evs, p.addReading factor r tare = .ok (q, evs) ∧ p'.addReading factor r tare = .ok (q', evs) ∧
      q.SameVisible q') ∨
    ∃ f, p.addReading factor r tare = .error f ∧ p'.addReading factor r tare = .error f := by
  obtain ⟨q, q', a, hv, hadd, hadd'⟩ := Processor.addReading_sameVisible_shape h factor r tare
  have hevents : q'.cycleEvents a r = q.cycleEvents a r := by
    rw [← q'.visible_cycleEvents, hv, q.visible_cycleEvents]
  rw [hevents] at hadd'
  cases hc : q.cycleEvents a r with
  | error f =>
    rw [hc] at hadd hadd'
    exact .inr ⟨f, hadd, hadd'⟩
  | ok evs =>
    rw [hc] at hadd hadd'
    obtain ⟨-, -, -, -, hreads, -⟩ := p.addReading_spec hadd
    obtain ⟨-, -, -, -, hreads', -⟩ := p'.addReading_spec hadd'
    refine .inl ⟨q, q', evs, hadd, hadd', hv, ?_, ?_⟩
    · rw [hreads, hreads', Processor.histRead_one_histWrite, Processor.histRead_one_histWrite]
    · rw [hreads, hreads', h.histRead_two_histWrite]

theorem Processor.SameVisible.sensWrite (h : p.SameVisible p') (kind : BitVec 16) (value : Word) :
    (p.sensWrite kind value).SameVisible (p'.sensWrite kind value) := by
  obtain ⟨hv, h1, h2⟩ := h
  refine ⟨?_, h1, h2⟩
  rw [Processor.visible_eq_iff] at hv ⊢
  obtain ⟨hn, hpv, hpp, hnv, hnp, hzc, hpos, hneg, hsens⟩ := hv
  exact ⟨hn, hpv, hpp, hnv, hnp, hzc, hpos, hneg, congrArg (List.set · kind.toNat value) hsens⟩

theorem Processor.SameVisible.hasKind (h : p.SameVisible p') (kind : BitVec 16) : p'.hasKind kind = p.hasKind kind :=
  (congrArg (fun q : Processor => q.hasKind kind) h.visible :)

end

/-! ### No instruction sees it -/

/-- The second outcome is the first up to what is hidden. -/
def sameAnswers (o o' : Host.Outcome State Fault Refusal) : Prop :=
  (∀ t, o = .next t → ∃ t', o' = .next t' ∧ t.sameObservable t') ∧ ∀ f, o = .fault f → o' = .fault f

theorem sameAnswers_next {t t' : State} (h : t.sameObservable t') : sameAnswers (.next t) (.next t') :=
  ⟨fun _ ht => by cases ht; exact ⟨t', rfl, h⟩, nofun⟩

theorem sameAnswers_fault (f : Fault) : sameAnswers (.fault f) (.fault f) := ⟨nofun, fun _ => id⟩

section
variable {p' : Processor} (s : State) (h : s.sp.SameVisible p')
include h

theorem State.addReading_sameAnswers (r : Reading) (tare : Word) :
    sameAnswers (s.addReading r tare) ((s.withSp p').addReading r tare) := by
  unfold State.addReading
  rcases h.addReading s.tareFactor r tare with ⟨q, q', evs, hq, hq', hsame⟩ | ⟨f, hf, hf'⟩
  · rw [hq, State.withSp_sp, State.withSp_tareFactor, hq']
    exact sameAnswers_next (State.sameObservable_withSp ((s.withSp q).emit evs) hsame)
  · rw [hf, State.withSp_sp, State.withSp_tareFactor, hf']
    exact sameAnswers_fault f

theorem State.acceptFrame_sameAnswers (dir : Bool) (ts : Stamp) (arrival : Word) :
    sameAnswers (s.acceptFrame dir ts arrival) ((s.withSp p').acceptFrame dir ts arrival) :=
  State.addReading_sameAnswers ((s.withDec (s.dec.acceptFrame dir ts arrival)).emit _) h _ _

theorem State.readError_sameAnswers : sameAnswers (.next s.readError) (.next (s.withSp p').readError) := by
  have hcomm : (s.withSp p').readError = s.readError.withSp p' := by rw [State.readError_eq, State.readError_eq]; rfl
  rw [hcomm]
  exact sameAnswers_next (s.readError.sameObservable_withSp (by rwa [State.readError_sp]))

theorem State.serial_sameAnswers {run : State → Host.Outcome State Fault Refusal}
    (hrun : ∀ u : State, u.sp.SameVisible p' → sameAnswers (run u) (run (u.withSp p'))) :
    sameAnswers (s.serial run) ((s.withSp p').serial run) := by
  unfold State.serial
  rw [State.withSp_dec]
  split
  · exact sameAnswers_next (s.sameObservable_withSp h)
  · exact hrun s.consume h

theorem execSensor_sameAnswers (kind : BitVec 16) (value : Word) :
    sameAnswers (execSensor kind value s) (execSensor kind value (s.withSp p')) := by
  unfold execSensor
  rw [State.withSp_sp, h.hasKind]
  split
  · exact sameAnswers_next (State.sameObservable_withSp (s.consume.withSp _) (h.sensWrite kind value))
  · exact sameAnswers_next (s.refuse.sameObservable_withSp h)

/-- Every instruction answers alike from two states that differ in what is hidden. -/
theorem exec_sameAnswers (i : Instr) : sameAnswers (exec i s) (exec i (s.withSp p')) := by
  cases i with
  | reservedZero => exact sameAnswers_next (s.refuse.sameObservable_withSp h)
  | reservedHigh low => exact sameAnswers_next (s.refuse.sameObservable_withSp h)
  | connect => exact sameAnswers_next (s.consume.connect.sameObservable_withSp h)
  | tareSet value => exact sameAnswers_next ((s.consume.withTare value).sameObservable_withSp h)
  | tareGet => exact sameAnswers_next ((s.consume.emit [.tareValue s.tare]).sameObservable_withSp h)
  | sensor kind value => exact execSensor_sameAnswers s h kind value
  | spAdd total count drift tare => exact s.consume.addReading_sameAnswers h ⟨total, count, drift⟩ tare
  | frameSentinel arrival =>
    exact s.serial_sameAnswers h fun u hu => sameAnswers_next ((u.emit _).sameObservable_withSp hu)
  | frameBadcsum frame arrival =>
    exact s.serial_sameAnswers h fun u hu =>
      sameAnswers_next (((u.withDec u.dec.clearErrors).emit _).sameObservable_withSp hu)
  | frameDataPos ts arrival => exact s.serial_sameAnswers h fun u hu => u.acceptFrame_sameAnswers hu true ts arrival
  | frameDataNeg ts arrival => exact s.serial_sameAnswers h fun u hu => u.acceptFrame_sameAnswers hu false ts arrival
  | rderr => exact s.serial_sameAnswers h fun u hu => u.readError_sameAnswers hu

end

/-- Settles O51: a state that looks the same is the same state with another processor that looks the same. -/
theorem hiddenStateUnobservable : Obligations.HiddenStateUnobservable := by
  intro i s s' hsame
  obtain ⟨hs, hv⟩ := (State.sameObservable_iff s s').1 hsame
  rw [hs]
  exact exec_sameAnswers s hv i

end Sys2Proof.Machine

/-! Proofs of the statements on the block's memories: the port and what a step takes from it, the history ring's reads, and
repeated writes (20_memory.md). -/

namespace Sys2Proof.Machine

/-! ## The port -/

theorem State.holds_iff (s : State) (t : Transaction) :
    s.holds t = true ↔ s.dec.link = .disconnected ∧ (decode t).serialRead = true := by
  rw [State.holds, Bool.and_eq_true, beq_iff_eq, isSerialRead_decode]

@[simp] theorem State.readError_port (s : State) : s.readError.port = s.port := by rw [State.readError_eq]; rfl

/-- Consuming takes the first transaction that is not held out of the port and leaves the others in their order. -/
theorem State.consume_port_of_split {s : State} {pre post : List Transaction} {t : Transaction}
    (hp : s.port = pre ++ t :: post) (hpre : ∀ u ∈ pre, s.holds u = true) (ht : s.holds t = false) :
    s.consume.port = pre ++ post := by
  rw [State.consume_port, hp, List.eraseP_append_right _ (by simpa using hpre), List.eraseP_cons_of_pos (by simp [ht])]

/-- Everything an instruction can do to the port: a held one leaves the state, any other is consumed. -/
theorem exec_port {i : Instr} {s t : State} (h : exec i s = .next t) :
    (i.serialRead = true ∧ s.dec.link = .disconnected ∧ t = s) ∨ t.port = s.consume.port := by
  rcases exec_cases h with hheld | ⟨-, rfl⟩ | ⟨_, -, -, rfl⟩ | ⟨_, _, -, -, rfl⟩ | ⟨_, _, _, _, _, -, -, -, rfl⟩ |
    ⟨-, -, rfl⟩ | ⟨_, _, _, _, _, _, -, -, rfl⟩ | ⟨_, _, -, -, rfl⟩ | ⟨-, rfl, -⟩ | ⟨_, -, rfl⟩ | ⟨-, rfl⟩
  -- the alternatives whose writes after consuming are to other groups
  any_goals exact .inr rfl
  · exact .inl hheld
  · exact .inr (State.readError_port _)

theorem step_of_presented {s : State} {t : Transaction} (h : s.presented = some t) : step s = exec (decode t) s := by
  rw [step, h]

/-- With nothing presented the block is idle. -/
theorem step_of_port_nil {s : State} (h : s.port = []) : step s = .next s := by
  simp [step, State.presented, h]

/-! ## Which instructions complete -/

theorem State.serial_completes (s : State) {run : State → Host.Outcome State Fault Refusal}
    (h : ∀ u, completes (run u)) : completes (s.serial run) := by
  unfold State.serial
  split
  · exact ⟨s, rfl⟩
  · exact h s.consume

theorem exec_dataFrame_completes (dir : Bool) (ts : Stamp) (arrival : Word) {s : State} (hb : s.sp.floatBounds) :
    completes (exec (dataFrame dir ts arrival) s) := by
  by_cases hc : s.dec.link = .connected
  · obtain ⟨_, _, -, hnext⟩ := exec_dataFrame_next dir ts arrival s hc hb
    exact ⟨_, hnext⟩
  · exact ⟨s, exec_dataFrame_held dir ts arrival s (Link.eq_disconnected hc)⟩

/-- Only a transaction that adds a Reading can fault, and not where the stored values are bounded. -/
theorem exec_completes {i : Instr} {s : State} (h : s.sp.floatBounds ∨ i.addsReading = false) : completes (exec i s) := by
  cases i with
  | spAdd total count drift tare =>
    obtain ⟨_, _, -, hnext⟩ := exec_spAdd_next total count drift tare s (h.resolve_right nofun)
    exact ⟨_, hnext⟩
  | frameDataPos ts arrival => exact exec_dataFrame_completes true ts arrival (h.resolve_right nofun)
  | frameDataNeg ts arrival => exact exec_dataFrame_completes false ts arrival (h.resolve_right nofun)
  | frameSentinel arrival => exact s.serial_completes fun _ => ⟨_, rfl⟩
  | frameBadcsum frame arrival => exact s.serial_completes fun _ => ⟨_, rfl⟩
  | rderr => exact s.serial_completes fun _ => ⟨_, rfl⟩
  | reservedZero => exact ⟨_, rfl⟩
  | connect => exact ⟨_, rfl⟩
  | sensor kind value => exact ⟨_, rfl⟩
  | tareSet value => exact ⟨_, rfl⟩
  | tareGet => exact ⟨_, rfl⟩
  | reservedHigh low => exact ⟨_, rfl⟩

/-! ## SENSOR -/

@[simp] theorem Processor.hasKind_sensWrite (p : Processor) (kind k : BitVec 16) (value : Word) :
    (p.sensWrite kind value).hasKind k = p.hasKind k := by
  rw [Processor.hasKind, Processor.sensWrite_length, Processor.hasKind]

/-- The later of two writes to a kind is the one that stays. -/
@[simp] theorem Processor.sensWrite_sensWrite (p : Processor) (kind : BitVec 16) (v w : Word) :
    (p.sensWrite kind v).sensWrite kind w = p.sensWrite kind w := by
  simp [Processor.sensWrite]

theorem exec_sensor_of_hasKind {s : State} {kind : BitVec 16} (value : Word) (h : s.sp.hasKind kind = true) :
    exec (.sensor kind value) s = .next (s.consume.withSp (s.sp.sensWrite kind value)) := by
  simp [exec, execSensor, h]

theorem exec_sensor_of_not_hasKind {s : State} {kind : BitVec 16} (value : Word) (h : s.sp.hasKind kind = false) :
    exec (.sensor kind value) s = .next s.refuse := by
  simp [exec, execSensor, h]

/-! ## The statements -/

/-- Settles O11: the transaction a step takes is not held, so its instruction consumes it. -/
theorem stepConsumesFirstAcceptable : Obligations.StepConsumesFirstAcceptable := by
  intro s pre t post hp hpre ht
  rw [step_of_presented (State.presented_of_split hp hpre ht)]
  refine ⟨fun hb => exec_completes (.inl hb), fun s' h => ?_⟩
  rcases exec_port h with ⟨hserial, hdown, -⟩ | hport
  · have hheld := (s.holds_iff t).2 ⟨hdown, hserial⟩
    rw [ht] at hheld; cases hheld
  · rw [hport, State.consume_port_of_split hp hpre ht]

/-- Settles O40: a kind's second write replaces the first, a second refusal sets a mark that is set, the register is written its own
value, and TARE_GET writes neither. -/
theorem repeatedWritesIdempotent : Obligations.RepeatedWritesIdempotent := by
  rintro s t u i (⟨kind, value, rfl⟩ | ⟨value, rfl⟩ | rfl) ht hu
  · cases hk : s.sp.hasKind kind with
    | true =>
      rw [exec_sensor_of_hasKind value hk] at ht; cases ht
      rw [exec_sensor_of_hasKind value (by simpa using hk)] at hu; cases hu
      exact ⟨rfl, s.sp.sensWrite_sensWrite kind value value, rfl, rfl, rfl⟩
    | false =>
      rw [exec_sensor_of_not_hasKind value hk] at ht; cases ht
      rw [exec_sensor_of_not_hasKind value (by simpa using hk)] at hu; cases hu
      exact ⟨rfl, rfl, rfl, rfl, rfl⟩
  · cases ht; cases hu
    exact ⟨rfl, rfl, rfl, rfl, rfl⟩
  · cases ht; cases hu
    exact ⟨rfl, rfl, rfl, rfl, rfl⟩

/-- Settles O10, by which transaction is presented in each of the three cases. -/
theorem stepRunsDecodedTransaction : Obligations.StepRunsDecodedTransaction := by
  refine ⟨fun s pre t post hp hpre ht => ?_, fun s t rest hp hheld => ?_, fun s => step_of_port_nil⟩
  · have hfirst := State.presented_of_split hp hpre ht
    exact ⟨hfirst, step_of_presented hfirst⟩
  · have hfirst : s.presented = some t := by rw [State.presented_all_held hheld, hp, List.head?_cons]
    exact ⟨hfirst, step_of_presented hfirst⟩

/-- Settles O25, from the ring's three rules of reading. -/
theorem histReadRule : Obligations.HistReadRule := fun p _ =>
  ⟨fun h1 hfill => ⟨_, p.histRead_ok h1 hfill⟩, p.histRead_one_histWrite, p.histRead_unfilled⟩

end Sys2Proof.Machine

/-! Proofs of the statements on the encoding: the fields and the checksum of a wire frame, the class a transaction decodes to, the
encoder against the decoder, and refusal (30_encoding.md R72 to R103). -/

namespace Sys2Proof.Machine

/-! ## The two tests on a frame -/

theorem frameIsSentinel_iff (f : Frame) : frameIsSentinel f = true ↔ f = BitVec.allOnes 40 := by
  simp [frameIsSentinel]

theorem frameChecksumValid_iff (f : Frame) : frameChecksumValid f = true ↔ frameExpected f = frameCsum f := by
  simp [frameChecksumValid]

/-- The sentinel's own checksum is wrong (30_encoding.md R98). -/
theorem ne_allOnes_of_valid {f : Frame} (h : frameChecksumValid f = true) : f ≠ BitVec.allOnes 40 := by
  rintro rfl
  exact absurd h (by decide)

theorem frameIsSentinel_of_valid {f : Frame} (h : frameChecksumValid f = true) : frameIsSentinel f = false := by
  rw [Bool.eq_false_iff, Ne, frameIsSentinel_iff]
  exact ne_allOnes_of_valid h

/-- The checksum test reads bits 6..0 of each byte only. -/
theorem frameChecksumValid_congr {f g : Frame} (h : ∀ i, i % 8 ≠ 7 → f.getLsbD i = g.getLsbD i) :
    frameChecksumValid f = frameChecksumValid g := by
  have hexpected : frameExpected f = frameExpected g := by
    refine BitVec.eq_of_getLsbD_eq fun i hi => ?_
    simp (disch := omega) only [frameExpected, getLsbD_checksumOf, getLsbD_frameByte, h]
  have hcsum : frameCsum f = frameCsum g := by
    refine BitVec.eq_of_getLsbD_eq fun i hi => ?_
    rw [getLsbD_frameCsum, getLsbD_frameCsum, h i (by omega)]
  rw [frameChecksumValid, hexpected, hcsum, frameChecksumValid]

/-- The mask 0x7F is the reading of bits 6..0 (30_encoding.md R84). -/
theorem low_seven_eq_iff (x y : Byte) : x.extractLsb' 0 7 = y.extractLsb' 0 7 ↔ x &&& 0x7F#8 = y &&& 0x7F#8 := by
  have hmask : ∀ n : Nat, n &&& 127 = n % 2 ^ 7 := fun n => Nat.and_two_pow_sub_one_eq_mod n 7
  simp only [← BitVec.toNat_inj, BitVec.extractLsb'_toNat, BitVec.toNat_and, BitVec.toNat_ofNat, Nat.reduceMod,
    Nat.reducePow, Nat.shiftRight_zero, hmask]

/-! ## The fields of a frame that is built from a timestamp and a direction -/

@[simp] theorem frameTs_frameOfData (ts : Stamp) (dir : Bool) : frameTs (frameOfData ts dir) = ts :=
  BitVec.extractLsb'_append_eq_left

@[simp] theorem frameDir_frameOfData (ts : Stamp) (dir : Bool) : frameDir (frameOfData ts dir) = dir := by
  rw [frameDir, getLsbD_frameOfData]; rfl

@[simp] theorem frameCsum_frameOfData (ts : Stamp) (dir : Bool) : frameCsum (frameOfData ts dir) =
    checksumOf (ts.extractLsb' 24 8) (ts.extractLsb' 16 8) (ts.extractLsb' 8 8) (ts.extractLsb' 0 8) := by
  refine BitVec.eq_of_getLsbD_eq fun i hi => ?_
  simp only [getLsbD_frameCsum, getLsbD_frameOfData, hi, decide_true, Bool.true_and, if_true]

@[simp] theorem frameChecksumValid_frameOfData (ts : Stamp) (dir : Bool) : frameChecksumValid (frameOfData ts dir) = true := by
  rw [frameChecksumValid_iff, frameExpected_eq, frameTs_frameOfData, frameCsum_frameOfData]

/-- The checksum of a valid frame follows from its timestamp. -/
theorem eq_frameOfData_of_valid {f : Frame} (h : frameChecksumValid f = true) : f = frameOfData (frameTs f) (frameDir f) := by
  refine frame_ext (by simp) (by simp) ?_
  rw [← (frameChecksumValid_iff f).1 h, frameExpected_eq, frameCsum_frameOfData]

/-- Bytes 0 to 3 are the timestamp, big-endian. -/
theorem frameByte_eq_frameTs (f : Frame) {k : Nat} (hk : k < 4) : frameByte f k = (frameTs f).extractLsb' (24 - 8 * k) 8 := by
  refine BitVec.eq_of_getLsbD_eq fun i hi => ?_
  have hpos : 32 - 8 * k + i = 8 + (24 - 8 * k + i) := by omega
  have hlt : 24 - 8 * k + i < 32 := by omega
  rw [getLsbD_frameByte, BitVec.getLsbD_extractLsb', getLsbD_frameTs, hpos, decide_eq_true hlt, Bool.true_and]

/-- Byte 4 is the direction over the checksum. -/
theorem frameByte_four_eq (f : Frame) : frameByte f 4 = BitVec.ofBool (frameDir f) ++ frameCsum f := by
  refine BitVec.eq_of_getLsbD_eq fun i hi => ?_
  rw [getLsbD_frameByte, BitVec.getLsbD_append, getLsbD_frameCsum]
  rcases Nat.lt_or_ge i 7 with h | h
  · simp [h, hi]
  · obtain rfl : i = 7 := by omega
    simp [frameDir]

/-! ## The fields of a frame that is A[39:0] of a transaction -/

section
variable (a : Word)

theorem frameCsum_extract : frameCsum (a.extractLsb' 0 40) = a.extractLsb' 0 7 :=
  BitVec.extractLsb'_extractLsb'_of_le (by decide)

theorem frameDir_extract : frameDir (a.extractLsb' 0 40) = a.getLsbD 7 := by
  rw [frameDir, BitVec.getLsbD_extractLsb']; simp

theorem frameByte_extract (k : Nat) : frameByte (a.extractLsb' 0 40) k = a.extractLsb' (32 - 8 * k) 8 :=
  BitVec.extractLsb'_extractLsb'_of_le (by omega)

theorem frameExpected_extract : frameExpected (a.extractLsb' 0 40) =
    (a.extractLsb' 32 8 ^^^ a.extractLsb' 24 8 ^^^ a.extractLsb' 16 8 ^^^ a.extractLsb' 8 8).extractLsb' 0 7 := by
  simp only [frameExpected, checksumOf, frameByte_extract]

end

end Sys2Proof.Machine

namespace Sys2Proof

open Sys2Proof.Machine

/-! ## The class of a FRAME -/

theorem decodeFrame_sentinel (arrival : Word) : decodeFrame (BitVec.allOnes 40) arrival = .frameSentinel arrival := by
  simp [decodeFrame, frameIsSentinel]

theorem decodeFrame_badcsum {f : Frame} (arrival : Word) (hs : frameIsSentinel f = false) (hc : frameChecksumValid f = false) :
    decodeFrame f arrival = .frameBadcsum f arrival := by
  simp [decodeFrame, hs, hc]

theorem decodeFrame_valid {f : Frame} (arrival : Word) (h : frameChecksumValid f = true) :
    decodeFrame f arrival = dataFrame (frameDir f) (frameTs f) arrival := by
  simp [decodeFrame, dataFrame, frameIsSentinel_of_valid h, h]

theorem decodeFrame_frameOfData (ts : Stamp) (dir : Bool) (arrival : Word) :
    decodeFrame (frameOfData ts dir) arrival = dataFrame dir ts arrival := by
  rw [decodeFrame_valid arrival (by simp), frameDir_frameOfData, frameTs_frameOfData]

theorem wellFormed_decodeFrame (f : Frame) (arrival : Word) : (decodeFrame f arrival).wellFormed = true := by
  unfold decodeFrame
  split_ifs with hs hc
  · rfl
  · simpa [Instr.wellFormed, hs] using hc
  · rfl
  · rfl

theorem classOf_decodeFrame (kinds : Nat) (f : Frame) (arrival : Word) : (decodeFrame f arrival).classOf kinds =
    if f = BitVec.allOnes 40 then .frameSentinel
    else if frameCsum f ≠ frameExpected f then .frameBadcsum
    else if frameDir f then .frameDataPos
    else .frameDataNeg := by
  have hc : (!frameChecksumValid f) = true ↔ frameCsum f ≠ frameExpected f := by
    rw [Bool.not_eq_true', Bool.eq_false_iff, Ne, frameChecksumValid_iff, eq_comm]
  simp only [decodeFrame, frameIsSentinel_iff, hc]
  split_ifs <;> rfl

/-! ## The class of a transaction -/

theorem decode_frame (a b c d : Word) : decode ⟨0x2, a, b, c, d⟩ = decodeFrame (a.extractLsb' 0 40) b := rfl

theorem decode_sensor (a b c d : Word) : decode ⟨0x5, a, b, c, d⟩ = .sensor (a.extractLsb' 0 16) b := rfl

theorem decode_tareSet (a b c d : Word) : decode ⟨0x6, a, b, c, d⟩ = .tareSet a := rfl

theorem decode_reservedHigh {op : BitVec 4} (a b c d : Word) (h : 8 ≤ op.toNat) :
    decode ⟨op, a, b, c, d⟩ = .reservedHigh (op.extractLsb' 0 3) := by
  have hop : ∀ n : BitVec 4, n.toNat < 8 → op ≠ n := by rintro n hn rfl; omega
  simp [decode, hop]

/-- Of the four operands an op other than FRAME, SP_ADD, SENSOR and TARE_SET reads none. -/
theorem decode_op_only {op : BitVec 4} (h2 : op ≠ 0x2) (h4 : op ≠ 0x4) (h5 : op ≠ 0x5) (h6 : op ≠ 0x6)
    (a b c d a' b' c' d' : Word) : decode ⟨op, a, b, c, d⟩ = decode ⟨op, a', b', c', d'⟩ := by
  simp only [decode, h2, h4, h5, h6, if_false]

theorem decode_encodeFrame (f : Frame) (arrival : Word) : decode (encodeFrame f arrival) = decodeFrame f arrival := by
  rw [encodeFrame, decode_frame, extract_setWidth_frame]

/-- The op of an encoded RESERVED keeps its three low bits. -/
theorem decode_encode_reservedHigh (low : BitVec 3) : decode (encode (.reservedHigh low)) = .reservedHigh low := by
  have hop : 8 ≤ (1#1 ++ low).toNat := by revert low; decide
  rw [encode, decode_reservedHigh _ _ _ _ hop, BitVec.extractLsb'_append_eq_right]

/-! ## The statements -/

/-- Settles O1: a FRAME by its three tests, any other class by its op. -/
theorem decodeEncodeRoundTrip : Obligations.DecodeEncodeRoundTrip := by
  intro i hwf
  cases i with
  | frameSentinel arrival => rw [encode, decode_encodeFrame, decodeFrame_sentinel]
  | frameBadcsum f arrival =>
    obtain ⟨hs, hc⟩ : frameIsSentinel f = false ∧ frameChecksumValid f = false := by simpa [Instr.wellFormed] using hwf
    rw [encode, decode_encodeFrame, decodeFrame_badcsum arrival hs hc]
  | frameDataPos ts arrival => rw [encode, decode_encodeFrame, decodeFrame_frameOfData]; rfl
  | frameDataNeg ts arrival => rw [encode, decode_encodeFrame, decodeFrame_frameOfData]; rfl
  | sensor kind value => rw [encode, decode_sensor, extract_setWidth_kind]
  | reservedHigh low => exact decode_encode_reservedHigh low
  | reservedZero | connect | rderr | spAdd | tareSet | tareGet => rfl

/-- Settles O2: `decode` and `classify` test the op in one order, and the fields of a FRAME are bits of A. -/
theorem decodeFollowsClassify : Obligations.DecodeFollowsClassify := by
  rintro kinds ⟨op, a, b, c, d⟩
  by_cases h0 : op = 0x0
  · subst h0; rfl
  by_cases h2 : op = 0x2
  · subst h2
    rw [decode_frame, classOf_decodeFrame, frameCsum_extract, frameExpected_extract, frameDir_extract]; rfl
  · simp only [decode, h0, h2, if_false, apply_ite (Instr.classOf kinds)]; rfl

/-- Settles O3: only a FRAME has a well-formedness condition. -/
theorem decodedIsWellFormed : Obligations.DecodedIsWellFormed := by
  rintro ⟨op, a, b, c, d⟩
  by_cases h2 : op = 0x2
  · subst h2; exact wellFormed_decodeFrame _ _
  · simp only [decode, h2, if_false]; split_ifs <;> rfl

/-- Settles O4: the mask is bits 6..0, and a flip of a bit 7 leaves those as they are. -/
theorem checksumDefinition : Obligations.ChecksumDefinition := by
  refine fun f => ⟨?_, fun k _ => frameChecksumValid_congr fun i hi => ?_⟩
  · rw [← low_seven_eq_iff, BitVec.extractLsb'_extractLsb'_of_le (by decide), frameChecksumValid_iff]; rfl
  · have hne : i ≠ 8 * k + 7 := by omega
    rw [← BitVec.twoPow_eq, BitVec.getLsbD_xor, BitVec.getLsbD_twoPow]
    simp [hne.symm]

/-- Settles O5: a valid frame is the encoded frame of its fields. -/
theorem validFrameUnique : Obligations.ValidFrameUnique := by
  refine ⟨by decide, fun _ => ne_allOnes_of_valid, fun ts dir => ⟨frameOfData ts dir, by simp, ?_⟩⟩
  rintro f ⟨hvalid, rfl, rfl⟩
  exact eq_frameOfData_of_valid hvalid

/-- Settles O6, from the bytes as fields and the decoding of a frame. -/
theorem dataFrameRoundTrip : Obligations.DataFrameRoundTrip := by
  refine ⟨fun ts dir => ?_, fun ts dir high arrival c d => ?_, by decide⟩
  · rw [frameByte_four_eq]
    simp [frameByte_eq_frameTs, checksumOf]
  · rw [decode_frame, extract_append_frame, decodeFrame_frameOfData]

/-- Settles O8, from what each op reads. -/
theorem ignoredFieldsIgnored : Obligations.IgnoredFieldsIgnored := by
  rintro ⟨op, a, b, c, d⟩ ⟨_, a', b', c', d'⟩ rfl
  refine ⟨?_, ?_, ?_, fun h2 h4 h5 h6 => decode_op_only h2 h4 h5 h6 ..⟩
  · rintro rfl (ha : a.extractLsb' 0 40 = a'.extractLsb' 0 40) (rfl : b = b')
    rw [decode_frame, decode_frame, ha]
  · rintro rfl (ha : a.extractLsb' 0 16 = a'.extractLsb' 0 16) (rfl : b = b')
    rw [decode_sensor, decode_sensor, ha]
  · rintro rfl (rfl : a = a')
    rw [decode_tareSet, decode_tareSet]

/-- Settles O9: nine closed words, each evaluated by the decoder. -/
theorem handEncodedWordsDecode : Obligations.HandEncodedWordsDecode := by
  unfold Obligations.HandEncodedWordsDecode
  decide

/-- Settles O38: RESERVED and a SENSOR out of range run `refuse`. -/
theorem refusalOnlyMarks : Obligations.RefusalOnlyMarks := by
  refine ⟨fun _ _ _ _ => rfl, fun op a b c d h => ⟨_, decode_reservedHigh a b c d h⟩, fun s => ⟨rfl, fun _ => rfl, ?_⟩⟩
  intro kind value h
  rw [exec_sensor_of_not_hasKind value (by simpa [Processor.hasKind] using h)]; rfl

end Sys2Proof

/-! Proofs of the statements on the frame decoder: a flipped bit of a frame, what is held, and what CONNECT, each class of FRAME and
RDERR do (40_frame_decoder.md). -/

namespace Sys2Proof.Machine

/-! ## One flipped bit of a frame -/

section
variable (f g : Frame)

-- Every field of a frame, and the checksum its bytes ask for, is linear in its bits.

theorem frameTs_xor : frameTs (f ^^^ g) = frameTs f ^^^ frameTs g := BitVec.extractLsb'_xor

theorem frameCsum_xor : frameCsum (f ^^^ g) = frameCsum f ^^^ frameCsum g := BitVec.extractLsb'_xor

theorem frameDir_xor : frameDir (f ^^^ g) = (frameDir f ^^ frameDir g) := BitVec.getLsbD_xor

theorem frameExpected_xor : frameExpected (f ^^^ g) = frameExpected f ^^^ frameExpected g := by
  simp only [frameExpected, checksumOf, frameByte, BitVec.extractLsb'_xor]
  ac_rfl

end

/-- A single bit of bytes 0 to 3 is a bit of the timestamp, and of neither field of byte 4. -/
theorem frame_bit_fields : ∀ i < 40, 8 ≤ i →
    frameTs (1#40 <<< i) = 1#32 <<< (i - 8) ∧ frameDir (1#40 <<< i) = false ∧ frameCsum (1#40 <<< i) = 0#7 := by decide

/-- The checksum sees every bit of bytes 0 to 3 but the bits 7. -/
theorem frameExpected_bit_ne_zero : ∀ i < 40, 8 ≤ i → i % 8 ≠ 7 → frameExpected (1#40 <<< i) ≠ 0#7 := by decide

/-- The sentinel's checksum is wrong in all seven bits, so one flipped bit does not mend it. -/
theorem frameChecksumValid_sentinel_xor_bit : ∀ i < 40, 8 ≤ i →
    frameChecksumValid (BitVec.allOnes 40 ^^^ 1#40 <<< i) = false := by decide

section
variable {f : Frame} {i : Nat} (hf : frameChecksumValid f = true) (h8 : 8 ≤ i) (h40 : i < 40)
include hf h8 h40

/-- A flipped bit that the checksum sees breaks it. -/
theorem frameChecksumValid_xor_bit (h7 : i % 8 ≠ 7) : frameChecksumValid (f ^^^ 1#40 <<< i) = false := by
  obtain ⟨-, -, hcsum⟩ := frame_bit_fields i h40 h8
  rw [Bool.eq_false_iff, Ne, frameChecksumValid_iff, frameExpected_xor, frameCsum_xor, hcsum, BitVec.xor_zero,
    (frameChecksumValid_iff f).1 hf]
  exact fun h => frameExpected_bit_ne_zero i h40 h8 h7 (xor_left_eq_self_iff.1 h)

/-- No valid frame is one bit away from the sentinel. -/
theorem frameIsSentinel_xor_bit : frameIsSentinel (f ^^^ 1#40 <<< i) = false := by
  rw [Bool.eq_false_iff, Ne, frameIsSentinel_iff]
  intro h
  have hback : f = BitVec.allOnes 40 ^^^ 1#40 <<< i := by rw [← h, BitVec.xor_assoc, BitVec.xor_self, BitVec.xor_zero]
  rw [hback, frameChecksumValid_sentinel_xor_bit i h40 h8] at hf
  cases hf

end

/-- Settles O7: the checksum sees a flipped bit 6..0 of a byte and does not see a bit 7. -/
theorem singleBitCorruption : Obligations.SingleBitCorruption := by
  intro f i high arrival c d hf h8 h40
  rw [decode_frame, extract_append_frame]
  refine ⟨fun h7 => decodeFrame_badcsum arrival (frameIsSentinel_xor_bit hf h8 h40)
    (frameChecksumValid_xor_bit hf h8 h40 h7), fun h7 => ?_⟩
  have hvalid : frameChecksumValid (f ^^^ 1#40 <<< i) = true := by
    obtain ⟨k, hk, rfl⟩ : ∃ k < 5, i = 8 * k + 7 := ⟨i / 8, by omega, by omega⟩
    exact ((checksumDefinition f).2 k hk).trans hf
  obtain ⟨hts, hdir, -⟩ := frame_bit_fields i h40 h8
  rw [decodeFrame_valid arrival hvalid, frameDir_xor, frameTs_xor, hts, hdir, Bool.xor_false]

/-! ## What is held -/

/-- While the link is down a FRAME of any class and an RDERR change nothing. -/
theorem exec_held {i : Instr} {s : State} (hi : i.serialRead = true) (h : s.dec.link = .disconnected) : exec i s = .next s := by
  cases i with
  | frameSentinel => rw [exec, execFrameSentinel, s.serial_disconnected _ h]
  | frameBadcsum => rw [exec, execFrameBadcsum, s.serial_disconnected _ h]
  | frameDataPos ts arrival => exact exec_dataFrame_held true ts arrival s h
  | frameDataNeg ts arrival => exact exec_dataFrame_held false ts arrival s h
  | rderr => rw [exec, execRderr, s.serial_disconnected _ h]
  | reservedZero | connect | spAdd | sensor | tareSet | tareGet | reservedHigh => cases hi

/-- A step takes a transaction of the port. -/
theorem State.mem_port_of_presented {s : State} {t : Transaction} (h : s.presented = some t) : t ∈ s.port := by
  unfold State.presented at h
  split at h
  · rename_i u hu; cases h; exact List.mem_of_find?_eq_some hu
  · exact List.mem_of_head? h

/-- Consuming takes one transaction where one is not held. -/
theorem State.consume_port_length {s : State} {t : Transaction} (hmem : t ∈ s.port) (ht : s.holds t = false) :
    s.consume.port.length + 1 = s.port.length := by
  rw [State.consume_port]
  exact List.length_eraseP_add_one hmem (by rw [ht]; rfl)

theorem step_of_all_held {s : State} (h : ∀ t ∈ s.port, s.holds t = true) : step s = .next s := by
  cases hp : s.presented with
  | none => rw [step, hp]
  | some t =>
    obtain ⟨hdown, hserial⟩ := (s.holds_iff t).1 (h t (State.mem_port_of_presented hp))
    rw [step_of_presented hp, exec_held hserial hdown]

/-- Settles O12: a held transaction changes nothing, only CONNECT brings the link up, and any other transaction is consumed. -/
theorem heldReadsWait : Obligations.HeldReadsWait := by
  refine ⟨fun _ _ => exec_held, fun _ => step_of_all_held, fun s s' hdown h hup => ?_, State.holds_iff,
    fun s t hserial hp => ?_⟩
  · rcases step_cases h with ⟨-, rfl⟩ | ⟨t, hp, ht⟩
    · rw [hdown] at hup; cases hup
    · rcases exec_link ht (by rw [hdown, hup]; exact nofun) with ⟨-, hconnect⟩ | ⟨hs, -⟩
      · exact ⟨t, hp, hconnect⟩
      · rw [hdown] at hs; cases hs
  · rw [step_of_presented hp]
    refine ⟨fun hb => exec_completes (.inl hb), fun s' h => ?_⟩
    have hfree : s.holds t = false := by
      rw [Bool.eq_false_iff, Ne, State.holds_iff, hserial]; exact fun hheld => nomatch hheld.2
    rcases exec_port h with ⟨hi, -⟩ | hport
    · rw [hserial] at hi; cases hi
    · rw [hport, State.consume_port_length (State.mem_port_of_presented hp) hfree]

/-! ## CONNECT, the sentinel and a bad checksum -/

/-- Settles O13: CONNECT over a link that is up and one that is down. -/
theorem connectResult : Obligations.ConnectResult := by
  refine ⟨fun _ _ _ _ => rfl, fun s => ?_, fun _ => ⟨rfl, rfl⟩⟩
  change Host.Outcome.next s.consume.connect = _
  by_cases h : s.dec.link = .connected
  · rw [State.connect, State.consume_dec, if_pos h, if_pos h, State.withDec_emit, State.emit_emit]; rfl
  · rw [State.connect, State.consume_dec, if_neg h, if_neg h, State.emit_nil]; rfl

section
variable {s : State} (h : s.dec.link = .connected)
include h

theorem exec_frameSentinel_connected (arrival : Word) :
    exec (.frameSentinel arrival) s = .next (s.consume.emit [.status .overflow false]) := by
  rw [exec, execFrameSentinel, s.serial_connected _ h]

theorem exec_frameBadcsum_connected (frame : Frame) (arrival : Word) :
    exec (.frameBadcsum frame arrival) s = .next ((s.consume.withDec s.dec.clearErrors).emit [.diag .csumMismatch]) := by
  rw [exec, execFrameBadcsum, s.serial_connected _ h]; rfl

theorem exec_rderr_connected : exec .rderr s = .next s.consume.readError := by
  rw [exec, execRderr, s.serial_connected _ h]

end

/-- Settles O14, from the decoding of the all-ones frame and its one event. -/
theorem sentinelResult : Obligations.SentinelResult := by
  refine ⟨fun high arrival c d => ?_, fun arrival s h => ?_⟩
  · rw [decode_frame, extract_append_frame]; exact decodeFrame_sentinel arrival
  · rw [exec_frameSentinel_connected h, State.consume_connected s h]; rfl

/-- Settles O15: the mask of the checksum test is its seven bits. -/
theorem badChecksumResult : Obligations.BadChecksumResult := by
  refine ⟨fun high frame arrival c d hsentinel hcsum => ?_, fun frame arrival s h => ?_⟩
  · have hs : frameIsSentinel frame = false := by
      rw [Bool.eq_false_iff, Ne, frameIsSentinel_iff]; exact hsentinel
    have hlow : frameCsum frame = (frameByte frame 4).extractLsb' 0 7 :=
      (BitVec.extractLsb'_extractLsb'_of_le (by decide)).symm
    have hc : frameChecksumValid frame = false := by
      rw [Bool.eq_false_iff, Ne, frameChecksumValid_iff, hlow]
      exact fun heq => hcsum ((low_seven_eq_iff _ _).1 heq)
    rw [decode_frame, extract_append_frame, decodeFrame_badcsum arrival hs hc]
  · rw [exec_frameBadcsum_connected h, State.consume_connected s h]; rfl

/-! ## The decoder after an accepted data frame -/

/-- A data frame that completes over a link that is up was accepted by the decoder. -/
theorem exec_dataFrame_dec {dir : Bool} {ts : Stamp} {arrival : Word} {s t : State} (hc : s.dec.link = .connected)
    (h : exec (dataFrame dir ts arrival) s = .next t) : t.dec = s.dec.acceptFrame dir ts arrival := by
  rcases exec_dataFrame_eq dir ts arrival s hc with ⟨q, evs, -, ht⟩ | hf
  · rw [ht] at h; cases h; rfl
  · rw [hf] at h; cases h

section
variable (d : Decoder) (dir : Bool) (ts : Stamp) (arrival : Word)

@[simp] theorem Decoder.acceptFrame_errCount : (d.acceptFrame dir ts arrival).errCount = 0 := by rw [Decoder.acceptFrame_eq]
@[simp] theorem Decoder.acceptFrame_synced : (d.acceptFrame dir ts arrival).synced = true := by rw [Decoder.acceptFrame_eq]
@[simp] theorem Decoder.acceptFrame_lastArrival : (d.acceptFrame dir ts arrival).lastArrival = arrival := by
  rw [Decoder.acceptFrame_eq]

end

section
variable {d : Decoder} (dir : Bool) (ts : Stamp) {arrival : Word}

/-- A first frame, and a frame after a gap, is the new anchor. -/
theorem Decoder.acceptFrame_anchor (h : d.synced = false ∨ 60000000 < (arrival - d.lastArrival).toInt) :
    (d.acceptFrame dir ts arrival).epochOffset = arrival ∧
      (d.acceptFrame dir ts arrival).firstDev = (d.acceptFrame dir ts arrival).ovfCount ++ ts := by
  rw [Decoder.acceptFrame_eq]
  rcases h with hs | hgap
  · simp [hs]
  · simp [hgap, -BitVec.toInt_sub]

/-- A gap forgets the wraps, so the anchor is the timestamp. -/
theorem Decoder.acceptFrame_gap (hs : d.synced = true) (hgap : 60000000 < (arrival - d.lastArrival).toInt) :
    (d.acceptFrame dir ts arrival).ovfCount = 0 ∧ (d.acceptFrame dir ts arrival).firstDev = ts.setWidth 64 := by
  have hovf : (d.acceptFrame dir ts arrival).ovfCount = 0 := by
    simp [Decoder.acceptFrame_eq, hs, hgap, -BitVec.toInt_sub]
  refine ⟨hovf, (Decoder.acceptFrame_anchor dir ts (.inr hgap)).2.trans ?_⟩
  rw [hovf]
  exact (BitVec.setWidth_eq_append (by decide)).symm

theorem Decoder.acceptFrame_noResync_epochOffset (hs : d.synced = true)
    (hgap : ¬ 60000000 < (arrival - d.lastArrival).toInt) :
    (d.acceptFrame dir ts arrival).epochOffset = d.epochOffset := by
  simp [Decoder.acceptFrame_eq, hs, hgap, -BitVec.toInt_sub]

/-- The Reading of the frame that is the anchor: its arrival, and no drift. -/
theorem Decoder.reading_of_anchor (hepoch : d.epochOffset = arrival) (hdev : d.firstDev = d.ovfCount ++ ts) :
    d.reading ts arrival = ⟨arrival, d.position, 0⟩ := by
  rw [Decoder.reading_eq, hdev, hepoch, BitVec.sub_self, BitVec.add_zero, BitVec.sub_self]; rfl

end

/-- Settles O16: a bad checksum clears the count before it is dropped, an accepted frame before anything else. -/
theorem nonSentinelFrameClearsErrors : Obligations.NonSentinelFrameClearsErrors := by
  intro i s t hserial hrderr hsentinel hc h
  cases i with
  | frameBadcsum frame arrival => rw [exec_frameBadcsum_connected hc] at h; cases h; rfl
  | frameDataPos ts arrival => rw [exec_dataFrame_dec (dir := true) hc h, Decoder.acceptFrame_errCount]
  | frameDataNeg ts arrival => rw [exec_dataFrame_dec (dir := false) hc h, Decoder.acceptFrame_errCount]
  | frameSentinel arrival => exact absurd rfl (hsentinel arrival)
  | rderr => exact absurd rfl hrderr
  | reservedZero | connect | spAdd | sensor | tareSet | tareGet | reservedHigh => cases hserial

/-- Settles O17: AddReading leaves the bank, and nothing after the decoder's writes changes the decoder. -/
theorem dataFrameDecoderState : Obligations.DataFrameDecoderState := by
  intro dir ts arrival s hc hb
  obtain ⟨q, evs, hq, hnext⟩ := exec_dataFrame_next dir ts arrival s hc hb
  obtain ⟨-, -, -, hsens, -⟩ := s.sp.addReading_spec hq
  refine ⟨_, hnext, ?_, hsens, rfl, rfl, rfl, congrArg State.port (s.consume_connected hc)⟩
  simp only [State.emit_dec, State.withSp_dec, State.withDec_dec, Decoder.acceptFrame_eq, hc, BitVec.lt_def,
    Bool.and_eq_true, Bool.or_eq_true, Bool.not_eq_true', decide_eq_true_eq]

/-- Settles O18: the Reading is that of the decoder after the frame, and AddReading emits at most a CYCLE. -/
theorem dataFrameReading : Obligations.DataFrameReading := by
  intro dir ts arrival s hc hb
  obtain ⟨q, evs, hq, hnext⟩ := exec_dataFrame_next dir ts arrival s hc hb
  obtain ⟨-, -, -, hsens, -, -, hevs⟩ := s.sp.addReading_spec hq
  rw [Decoder.reading_eq] at hnext hevs
  refine ⟨_, evs, hnext, rfl, hevs.imp_right ?_⟩
  rintro ⟨amplitude, period, -, -, hcycle⟩
  exact ⟨amplitude, period, by rw [hcycle, hsens]; rfl⟩

/-- Settles O19: a first frame is the anchor. -/
theorem firstFrameAnchors : Obligations.FirstFrameAnchors := by
  intro dir ts arrival s hc hb hs
  obtain ⟨q, evs, -, hnext⟩ := exec_dataFrame_next dir ts arrival s hc hb
  obtain ⟨hepoch, hdev⟩ := Decoder.acceptFrame_anchor dir ts (arrival := arrival) (.inl hs)
  rw [Decoder.reading_of_anchor ts hepoch hdev] at hnext
  refine ⟨_, evs, hnext, Decoder.acceptFrame_synced .., hepoch, ?_, rfl⟩
  simp only [State.emit_dec, State.withSp_dec, State.withDec_dec]
  rw [hdev, toNat_append_stamp, Nat.add_comm]

/-- Settles O20: the signed difference of the arrivals wraps as the 64-bit one does, and above the gap the frame is the anchor. -/
theorem resynchronisationRule : Obligations.ResynchronisationRule := by
  intro dir ts arrival s hc hb hs
  obtain ⟨q, evs, -, hnext⟩ := exec_dataFrame_next dir ts arrival s hc hb
  refine ⟨_, evs, _, hnext, rfl, ?_⟩
  simp only [State.emit_dec, State.withSp_dec, State.withDec_dec]
  rw [show BitVec.ofInt 64 (arrival.toInt - s.dec.lastArrival.toInt) = arrival - s.dec.lastArrival from wrap64_sub ..]
  split
  next hgap =>
    obtain ⟨hepoch, hdev⟩ := Decoder.acceptFrame_anchor dir ts (.inr hgap)
    obtain ⟨hovf, hstamp⟩ := Decoder.acceptFrame_gap dir ts hs hgap
    rw [Decoder.reading_of_anchor ts hepoch hdev]
    exact ⟨hovf, hepoch, by rw [hstamp, BitVec.toNat_setWidth_of_le (by decide)], rfl, rfl⟩
  next hgap =>
    obtain ⟨hdev, -, hovf⟩ := Decoder.acceptFrame_noResync dir ts hs hgap
    exact ⟨Decoder.acceptFrame_noResync_epochOffset dir ts hs hgap, hdev, hovf⟩

/-- Settles O21: the first frame leaves its arrival and synchronises, so the later one resynchronises. -/
theorem gapForgetsWraps : Obligations.GapForgetsWraps := by
  intro dir dir' ts ts' arrival arrival' s t u hc ht hlast hsynced hcu hb hgap
  rw [exec_dataFrame_dec hc ht] at hlast hsynced
  rw [Decoder.acceptFrame_synced] at hsynced
  rw [Decoder.acceptFrame_lastArrival] at hlast
  rw [← hlast] at hgap
  obtain ⟨q, evs, -, hnext⟩ := exec_dataFrame_next dir' ts' arrival' u hcu hb
  obtain ⟨hepoch, -⟩ := Decoder.acceptFrame_anchor dir' ts' (.inr hgap)
  obtain ⟨hovf, hstamp⟩ := Decoder.acceptFrame_gap dir' ts' hsynced hgap
  exact ⟨_, hnext, hovf, hepoch, hstamp⟩

/-- Settles O24: both instructions run AddReading on one processor, one Reading and one tare. -/
theorem handOffIsAddReading : Obligations.HandOffIsAddReading := by
  intro dir ts arrival s hc hb
  obtain ⟨q, evs, hq, hnext⟩ := exec_dataFrame_next dir ts arrival s hc hb
  obtain ⟨q', evs', hq', hnext'⟩ := exec_spAdd_next _ _ _ s.tare s hb
  obtain ⟨rfl, rfl⟩ : q' = q ∧ evs' = evs := by rw [hq] at hq'; cases hq'; exact ⟨rfl, rfl⟩
  exact ⟨_, _, (s.dec.acceptFrame dir ts arrival).reading ts arrival, evs', hnext, hnext', rfl, rfl, rfl⟩

/-! ## Read errors and the breaker -/

/-- Over a link that is down only CONNECT changes the decoder. -/
theorem exec_dec_of_disconnected {i : Instr} {s t : State} (h : exec i s = .next t) (hdown : s.dec.link = .disconnected)
    (hi : i ≠ .connect) : t.dec = s.dec := by
  rcases exec_dec h with hd | ⟨hconnect, -⟩ | ⟨-, hup, -⟩
  · exact hd
  · exact absurd hconnect hi
  · rw [hdown] at hup; cases hup

/-- Settles O23: the state after a read error below the limit and at it. -/
theorem readErrorAndBreaker : Obligations.ReadErrorAndBreaker := by
  refine ⟨fun _ _ _ _ => rfl, fun s hc hlt => ?_, fun s hc hge => ⟨_, ?_, rfl, fun i hi => exec_held hi rfl,
    fun i u hi h => exec_dec_of_disconnected h rfl hi⟩⟩
  · rw [exec_rderr_connected hc, State.readError_eq, s.consume_connected hc, if_pos hlt, if_pos hlt]; rfl
  · rw [exec_rderr_connected hc, State.readError_eq, s.consume_connected hc, if_neg (not_lt.2 hge), if_neg (not_lt.2 hge)]; rfl

end Sys2Proof.Machine

/-! Proofs of the statements on the signal processor: the fit and what an accepted vertex stores, half-periods, the bank, and what
SP_ADD does to the ring, the crossing, the peaks and the output (41_signal_processor.md). -/

namespace Sys2Proof.Machine

/-! ## The parabola through three points -/

section
variable {x1 x3 : Rat} (h1 : x1 ≠ 0) (h3 : x3 ≠ 0) (h13 : x1 ≠ x3)
include h1 h3 h13

/-- The closed form is a solution of the two equations. -/
theorem closedForm_interpolates (y1 y2 y3 : Rat) :
    ((y1 - y2) * x3 - (y3 - y2) * x1) / (x1 * x3 * (x1 - x3)) * x1 ^ 2 +
        ((y3 - y2) * x1 ^ 2 - (y1 - y2) * x3 ^ 2) / (x1 * x3 * (x1 - x3)) * x1 + y2 = y1 ∧
      ((y1 - y2) * x3 - (y3 - y2) * x1) / (x1 * x3 * (x1 - x3)) * x3 ^ 2 +
        ((y3 - y2) * x1 ^ 2 - (y1 - y2) * x3 ^ 2) / (x1 * x3 * (x1 - x3)) * x3 + y2 = y3 := by
  have hd := sub_ne_zero.2 h13
  constructor <;> field_simp <;> ring

/-- It is the only one. -/
theorem closedForm_unique {a b y1 y2 y3 : Rat} (e1 : a * x1 ^ 2 + b * x1 + y2 = y1) (e3 : a * x3 ^ 2 + b * x3 + y2 = y3) :
    ((y1 - y2) * x3 - (y3 - y2) * x1) / (x1 * x3 * (x1 - x3)) = a ∧
      ((y3 - y2) * x1 ^ 2 - (y1 - y2) * x3 ^ 2) / (x1 * x3 * (x1 - x3)) = b := by
  have hd := sub_ne_zero.2 h13
  subst e1 e3
  constructor <;> field_simp <;> ring

end

/-- At the vertex a parabola has the value of its closed form. -/
theorem parabola_at_vertex {a : Rat} (ha : a ≠ 0) (b c : Rat) :
    a * (-b / (2 * a)) ^ 2 + b * (-b / (2 * a)) + c = c - b ^ 2 / (4 * a) := by
  field_simp; ring

theorem fit_of_equal_times {t1 t2 t3 : Int} (y1 y2 y3 : Int) (h : t1 = t2 ∨ t3 = t2 ∨ t1 = t3) :
    fit .exactRational t1 y1 t2 y2 t3 y3 = none := by
  have hx : ((t1 - t2 : Int) : Rat) = 0 ∨ ((t3 - t2 : Int) : Rat) = 0 ∨
      ((t1 - t2 : Int) : Rat) = ((t3 - t2 : Int) : Rat) := by
    rcases h with rfl | rfl | rfl <;> simp
  simp only [fit, fitExact, parabolaThrough, if_pos hx]

/-- Distinct times have distinct abscissae about t2. -/
theorem abscissae_distinct {t1 t2 t3 : Int} (h12 : t1 ≠ t2) (h32 : t3 ≠ t2) (h13 : t1 ≠ t3) :
    (t1 : Rat) - t2 ≠ 0 ∧ (t3 : Rat) - t2 ≠ 0 ∧ (t1 : Rat) - t2 ≠ (t3 : Rat) - t2 := by
  rw [sub_ne_zero, sub_ne_zero, ne_eq _ ((t3 : Rat) - t2), sub_left_inj]
  exact ⟨by exact_mod_cast h12, by exact_mod_cast h32, by exact_mod_cast h13⟩

/-- FIT at distinct times, by any description of the parabola through the three points with the origin at t2. -/
theorem fit_of_parabola {t1 y1 t2 y2 t3 y3 : Int} {a b : Rat} (h12 : t1 ≠ t2) (h32 : t3 ≠ t2) (h13 : t1 ≠ t3)
    (e1 : a * ((t1 : Rat) - t2) ^ 2 + b * ((t1 : Rat) - t2) + y2 = y1)
    (e3 : a * ((t3 : Rat) - t2) ^ 2 + b * ((t3 : Rat) - t2) + y2 = y3) :
    fit .exactRational t1 y1 t2 y2 t3 y3 =
      if a ≠ 0 ∧ (t1 : Rat) ≤ -b / (2 * a) + t2 ∧ -b / (2 * a) + t2 ≤ (t3 : Rat) ∧ |b ^ 2 / (4 * a)| ≤ 4
      then some ⟨-b / (2 * a) + t2, (y2 : Rat) - b ^ 2 / (4 * a)⟩ else none := by
  obtain ⟨hx1, hx3, hx13⟩ := abscissae_distinct h12 h32 h13
  obtain ⟨ha, hb⟩ := closedForm_unique hx1 hx3 hx13 e1 e3
  have hp : parabolaThrough t1 y1 t2 y2 t3 y3 = some ⟨a, b, y2⟩ := by
    simp only [parabolaThrough, Int.cast_sub, hx1, hx3, hx13, or_self, if_false, ha, hb]
  rw [fit, fitExact, hp]
  by_cases h0 : a = 0
  · simp [h0]
  · simp only [h0, if_false, parabola_at_vertex h0, ne_eq, not_false_eq_true, true_and, sub_sub_cancel_left, abs_neg,
      Config.peakTol, Int.cast_ofNat]

/-- Settles O30: the closed form is the one solution of the equations of the three points. -/
theorem fitIsVertexOfParabola : Obligations.FitIsVertexOfParabola := by
  refine ⟨fun t1 y1 t2 y2 t3 y3 h12 h32 h13 => ?_, fun _ _ _ _ _ _ => fit_of_equal_times _ _ _⟩
  obtain ⟨hx1, hx3, hx13⟩ := abscissae_distinct h12 h32 h13
  obtain ⟨e1, e3⟩ := closedForm_interpolates hx1 hx3 hx13 (y1 : Rat) y2 y3
  refine ⟨e1, e3, fun a b c h1 hc h3 => ?_, fit_of_parabola h12 h32 h13 e1 e3⟩
  subst hc
  exact (closedForm_unique hx1 hx3 hx13 h1 h3).imp Eq.symm Eq.symm

/-- Settles O31: with the origin at t2 a parabola in vertex form has the slope `2 * curvature * (t2 - vertexTime)` there. -/
theorem interpolationIsExact : Obligations.InterpolationIsExact := by
  intro t1 y1 t2 y2 t3 y3 curvature vertexTime vertexValue hc h12 h32 h13 e1 e2 e3 hlo hhi htol
  have htime : -(2 * curvature * (t2 - vertexTime)) / (2 * curvature) + t2 = vertexTime := by field_simp; ring
  have hdepth : (2 * curvature * (t2 - vertexTime)) ^ 2 / (4 * curvature) = y2 - vertexValue := by rw [e2]; field_simp; ring
  rw [fit_of_parabola (a := curvature) (b := 2 * curvature * (t2 - vertexTime)) h12 h32 h13 (by rw [e1, e2]; ring)
    (by rw [e3, e2]; ring), htime, hdepth, abs_sub_comm, if_pos ⟨hc, hlo, hhi, htol⟩, sub_sub_cancel]

/-- The vertex of a parabola that has at `q` the value it has at the origin. -/
theorem level_vertex {a : Rat} (ha : a ≠ 0) (q : Rat) :
    -(-(a * q)) / (2 * a) = q / 2 ∧ (-(a * q)) ^ 2 / (4 * a) = a * q ^ 2 / 4 := by
  constructor <;> field_simp

/-- How deep that vertex lies, where the parabola is 2 away from the origin's value at `-p`. -/
theorem level_depth_le_iff {a p q : Rat} (hp : 0 < p) (hq : 0 < q) (h : |a| * (p * (p + q)) = 2) :
    |a * q ^ 2 / 4| ≤ 4 ↔ q ^ 2 ≤ 8 * p * (p + q) := by
  have hpq : 0 < p * (p + q) := by positivity
  have hscaled : |a * q ^ 2 / 4| * (p * (p + q)) = q ^ 2 / 2 := by
    rw [abs_div, abs_mul, abs_of_pos (by positivity : 0 < q ^ 2), abs_of_pos (by norm_num : (0 : Rat) < 4)]
    linear_combination q ^ 2 / 4 * h
  rw [← mul_le_mul_iff_left₀ hpq, hscaled]
  constructor <;> intro hle <;> linarith

/-- The fit of three points of which the last two are level and the first lies 2 away. -/
theorem fit_of_level {t1 t2 t3 : Int} (y u : Int) (hu : |u| = 2) (h12 : t1 < t2) (h23 : t2 < t3) :
    ∃ value, fit .exactRational t1 (y + u) t2 y t3 y =
      if (t3 - t2) ^ 2 ≤ 8 * (t2 - t1) * ((t2 - t1) + (t3 - t2)) then
        some ⟨(t2 : Rat) + ((t3 - t2 : Int) : Rat) / 2, value⟩ else none := by
  obtain ⟨p, hp⟩ : ∃ p : Rat, (t2 : Rat) - t1 = p := ⟨_, rfl⟩
  obtain ⟨q, hq⟩ : ∃ q : Rat, (t3 : Rat) - t2 = q := ⟨_, rfl⟩
  have hp0 : 0 < p := by rw [← hp, sub_pos]; exact_mod_cast h12
  have hq0 : 0 < q := by rw [← hq, sub_pos]; exact_mod_cast h23
  obtain ⟨a, ha⟩ : ∃ a : Rat, a * (p * (p + q)) = u := ⟨u / (p * (p + q)), div_mul_cancel₀ _ (by positivity)⟩
  have habs : |a| * (p * (p + q)) = 2 := by
    have hu' : |(u : Rat)| = 2 := by exact_mod_cast hu
    rw [← hu', ← ha, abs_mul, abs_of_pos (by positivity : 0 < p * (p + q))]
  have ha0 : a ≠ 0 := by rintro rfl; simp at habs
  have htol : |a * q ^ 2 / 4| ≤ 4 ↔ (t3 - t2) ^ 2 ≤ 8 * (t2 - t1) * ((t2 - t1) + (t3 - t2)) := by
    rw [level_depth_le_iff hp0 hq0 habs, ← hp, ← hq]
    exact_mod_cast Iff.rfl
  obtain ⟨htime, hdepth⟩ := level_vertex ha0 q
  have hwindow : (t1 : Rat) ≤ t2 + q / 2 ∧ t2 + q / 2 ≤ (t3 : Rat) := by constructor <;> linarith
  refine ⟨(y : Rat) - a * q ^ 2 / 4, ?_⟩
  rw [fit_of_parabola (a := a) (b := -(a * q)) h12.ne h23.ne' (h12.trans h23).ne
    (by rw [← neg_sub, hp]; push_cast; linear_combination ha) (by rw [hq]; ring), htime, hdepth, add_comm (q / 2)]
  simp only [htol, ha0, hwindow, ne_eq, not_false_eq_true, true_and, Int.cast_sub, hq]

/-- Settles O32: the last two biased inputs are level, in a maximum and in a minimum. -/
theorem unitStepExtremum : Obligations.UnitStepExtremum := by
  intro t1 p2 t2 t3 h12 h23
  obtain ⟨v1, hmax⟩ := fit_of_level p2 (-2) (by decide) h12 h23
  obtain ⟨v2, hmin⟩ := fit_of_level (p2 + 2) 2 (by decide) h12 h23
  rw [sub_eq_add_neg p2 2, show p2 + 4 = p2 + 2 + 2 by ring, hmax, hmin]
  refine ⟨Option.isSome_ite, Option.isSome_ite, ?_⟩
  rintro v (h | h) <;> obtain ⟨-, hv⟩ := Option.ite_none_right_eq_some.1 h <;> cases hv <;> rfl

/-! ## What an accepted vertex stores -/

/-- Truncation is the floor of what is not negative and the ceiling of what is not positive. -/
theorem truncRat_of_nonneg {q : Rat} (h : 0 ≤ q) : truncRat q = ⌊q⌋ := by
  rw [truncRat, Int.tdiv_eq_ediv_of_nonneg (Rat.num_nonneg.2 h), Rat.floor_def']

theorem truncRat_of_nonpos {q : Rat} (h : q ≤ 0) : truncRat q = ⌈q⌉ := by
  have hneg : truncRat (-q) = -truncRat q := by
    rw [truncRat, truncRat, Rat.neg_num, Rat.neg_den, Int.neg_tdiv]
  rw [← neg_inj, ← hneg, truncRat_of_nonneg (neg_nonneg.2 h), Int.floor_neg]

/-- Truncation goes toward zero and by less than one. -/
theorem truncRat_toward_zero (q : Rat) : |(truncRat q : Rat)| ≤ |q| ∧ |q - truncRat q| < 1 := by
  rcases le_total 0 q with h | h
  · have hfloor : (0 : Rat) ≤ ⌊q⌋ := by exact_mod_cast Int.floor_nonneg.2 h
    have hle := Int.floor_le q
    have hlt := Int.lt_floor_add_one q
    rw [truncRat_of_nonneg h, abs_of_nonneg h, abs_of_nonneg hfloor, abs_of_nonneg (by linarith)]
    exact ⟨hle, by linarith⟩
  · have hceil : (⌈q⌉ : Rat) ≤ 0 := by exact_mod_cast Int.ceil_le.2 (by exact_mod_cast h)
    have hle := Int.le_ceil q
    have hlt := Int.ceil_lt_add_one q
    rw [truncRat_of_nonpos h, abs_of_nonpos h, abs_of_nonpos hceil, abs_of_nonpos (by linarith)]
    exact ⟨by linarith, by linarith⟩

/-- Truncation does not leave the integers a rational lies between. -/
theorem truncRat_mem {q : Rat} {lo hi : Int} (hlo : (lo : Rat) ≤ q) (hhi : q ≤ (hi : Rat)) :
    lo ≤ truncRat q ∧ truncRat q ≤ hi := by
  rcases le_total 0 q with h | h
  · rw [truncRat_of_nonneg h]
    exact ⟨Int.le_floor.2 hlo, by exact_mod_cast (Int.floor_le q).trans hhi⟩
  · rw [truncRat_of_nonpos h]
    exact ⟨by exact_mod_cast hlo.trans (Int.le_ceil q), Int.ceil_le.2 hhi⟩

/-- The truncated time of a vertex between two s64 times is s64. -/
theorem toInt_wrap64_truncRat {q : Rat} {t1 t3 : Word} (h1 : (t1.toInt : Rat) ≤ q) (h3 : q ≤ (t3.toInt : Rat)) :
    (wrap64 (truncRat q)).toInt = truncRat q := by
  obtain ⟨hlo, hhi⟩ := truncRat_mem h1 h3
  exact BitVec.toInt_ofInt_eq_self (by decide) (t1.le_toInt.trans hlo) (hhi.trans_lt t3.toInt_lt)

/-- Settles O33: the vertex time lies between two s64 times, and its value near the middle input. -/
theorem peakTimeFits : Obligations.PeakTimeFits := by
  intro t1 t2 t3 y1 y2 y3 v hy hfit
  obtain ⟨h1, h3, htol⟩ := fit_some hfit
  have hvalue : |v.value| ≤ 2 ^ 70 := by
    have hy' : |(y2 : Rat)| ≤ 2 ^ 64 + 2 := by exact_mod_cast hy
    have hsum := abs_add_le (v.value - y2) y2
    rw [sub_add_cancel] at hsum
    linarith
  have hrne := rne_ok hvalue
  have htime := toInt_wrap64_truncRat h1 h3
  refine ⟨⟨true, wrap64 (truncRat v.time), roundNearest v.value⟩, by rw [Vertex.toPeak, hrne]; rfl, rfl, hrne, htime, ?_⟩
  rw [htime]
  exact truncRat_toward_zero v.time

/-! ## Half-periods -/

theorem halfPeriod_of_rne {delta : Int} {x : F64} (h : rne (delta : Rat) = .ok x) : halfPeriod delta = f64Div x f64Million := by
  rw [halfPeriod, h]

/-- Every whole number up to 2^53 is a magnitude. -/
theorem exists_magnitudeValue_eq_natCast {n : Nat} (h : n ≤ 2 ^ 53) : ∃ m < f64InfinityBits, magnitudeValue m = n := by
  rcases Nat.lt_or_ge n (2 ^ 52) with hlt | hge
  · rcases Nat.eq_zero_or_pos n with rfl | hpos
    · exact ⟨0, by decide, by simp⟩
    · have hlo := Nat.log2_self_le hpos.ne'
      have hhi := Nat.lt_log2_self (n := n)
      have hlog : n.log2 < 52 := (Nat.log2_lt hpos.ne').2 hlt
      obtain ⟨j, hj⟩ : ∃ j, n.log2 + j = 52 := ⟨52 - n.log2, by omega⟩
      have hk1 : 2 ^ 52 ≤ n * 2 ^ j := by rw [← hj, pow_add]; gcongr
      have hk2 : n * 2 ^ j < 2 ^ 53 := by
        rw [show 53 = n.log2 + 1 + j by omega, pow_add]; gcongr
      refine ⟨_, ?_, (magnitudeValue_round (lsb := -(j : Int)) (by omega) hk2.le (.inr hk1)).trans ?_⟩
      · simp only [f64InfinityBits]; omega
      · rw [zpow_neg, zpow_natCast]; push_cast; field_simp
  · refine ⟨_, ?_, (magnitudeValue_round (lsb := 0) (by decide) h (.inr hge)).trans (by simp)⟩
    simp only [f64InfinityBits]; omega

/-- Integers up to 2^53 are binary64 values. -/
theorem f64Value_roundNearest_intCast {n : Int} (h : |n| ≤ 2 ^ 53) : f64Value (roundNearest (n : Rat)) = n := by
  obtain ⟨m, hm, hval⟩ := exists_magnitudeValue_eq_natCast (n := n.natAbs) (by rw [Int.abs_eq_natAbs] at h; omega)
  have hm63 : m < 2 ^ 63 := hm.trans (by decide)
  have hx : f64Value (f64WithSign (decide (n < 0)) m) = n := by
    rw [f64Value_withSign _ hm63, hval, Nat.cast_natAbs]
    rcases lt_or_ge n 0 with hneg | hpos
    · simp [hneg, abs_of_neg hneg]
    · simp [hpos.not_gt, abs_of_nonneg hpos]
  have hlargest := abs_f64Value_le_largest (f64Finite_withSign (decide (n < 0)) hm)
  have hnear := ((roundNearest_nearest hlargest).2 (f64WithSign (decide (n < 0)) m)).1
  rwa [hx, sub_self, abs_zero, abs_nonpos_iff, sub_eq_zero] at hnear

theorem halfPeriod_exact {delta : Int} (h : |delta| ≤ 2 ^ 53) : halfPeriod delta = rne ((delta : Rat) / 10 ^ 6) := by
  have hbound : |(delta : Rat)| ≤ 2 ^ 70 := by
    have : |(delta : Rat)| ≤ 2 ^ 53 := by exact_mod_cast h
    linarith
  have hvalue := f64Value_roundNearest_intCast h
  rw [halfPeriod_of_rne (rne_ok hbound)]
  rcases eq_or_ne delta 0 with rfl | h0
  · rw [Int.cast_zero, zero_div, rne_ok (by simp)]; decide
  · rw [f64Div_finite (roundNearest_bound hbound).1 (by decide) (by decide)
      (f64IsZero_of_value_ne (by rw [hvalue]; exact_mod_cast h0)), hvalue, f64Value_million]

/-- Above the midpoint of two neighbouring magnitudes rounding does not go down to the lower one. -/
theorem IsNearestEven.ge_of_midpoint_lt {M m : Nat} {q : Rat} (h : IsNearestEven M q)
    (hmid : magnitudeValue m + magnitudeValue (m + 1) < 2 * q) : m + 1 ≤ M := by
  by_contra! hlt
  have hstep := magnitudeValue_strictMono m.lt_succ_self
  have hbelow := magnitudeValue_strictMono.monotone (Nat.le_of_lt_succ hlt)
  have hnear := (h (m + 1)).1
  rw [abs_of_nonpos (by linarith)] at hnear
  rcases le_abs.1 hnear with hup | hdown <;> linarith

/-- One tenth is above the midpoint of its two neighbours, so it rounds up. -/
theorem magnitudeValue_around_tenth : magnitudeValue 0x3FB9999999999999 + magnitudeValue 0x3FB999999999999A < 2 * (1 / 10) ∧
    1 / 10 ≤ magnitudeValue 0x3FB999999999999A := by decide +kernel

/-- What is at least one tenth rounds to at least one tenth. -/
theorem tenth_le_roundNearest {q : Rat} (h : 1 / 10 ≤ q) (hq : |q| ≤ f64Value f64Largest) :
    1 / 10 ≤ f64Value (roundNearest q) := by
  obtain ⟨hmid, htenth⟩ := magnitudeValue_around_tenth
  obtain ⟨M, hlt, hM, hr⟩ := roundNearest_eq_of_le_largest hq
  have h0 : 0 ≤ q := by linarith
  rw [abs_of_nonneg h0] at hM
  rw [hr, f64Value_withSign _ (hlt.trans (by decide)), decide_eq_false h0.not_gt]
  exact htenth.trans (magnitudeValue_strictMono.monotone (hM.ge_of_midpoint_lt (by linarith)))

/-- A half-period from the debounce bound up: the difference rounds to 100 000 or more, and the quotient to one tenth or more. -/
theorem tenth_le_halfPeriod {delta : Int} {half : F64} (hdelta : Config.debounceUs ≤ delta) (h : halfPeriod delta = .ok half) :
    1 / 10 ≤ f64Value half := by
  have hge : (100000 : Rat) ≤ delta := by exact_mod_cast hdelta
  cases hx : rne (delta : Rat) with
  | error f => rw [halfPeriod, hx] at h; cases h
  | ok x =>
    rw [halfPeriod_of_rne hx] at h
    obtain ⟨hrange, rfl⟩ := rne_eq_ok.1 hx
    have hvalue : (100000 : Rat) ≤ f64Value (roundNearest delta) := by
      obtain ⟨m, -, hm⟩ := exists_magnitudeValue_eq_natCast (n := 100000) (by decide)
      have hle := magnitudeValue_le_roundNearest (hm.trans_le (by exact_mod_cast hge)) hrange
      rw [hm] at hle
      exact_mod_cast hle
    rw [f64Div_finite (roundNearest_nearest hrange).1 (by decide) (by decide) (f64IsZero_of_value_ne (by linarith)),
      f64Value_million] at h
    obtain ⟨hrange', rfl⟩ := rne_eq_ok.1 h
    exact tenth_le_roundNearest (by rw [le_div_iff₀ (by norm_num)]; linarith) hrange'

/-- Any difference below 2^64 is one of two s64 times. -/
theorem exists_asS64_sub_eq {delta : Int} (h0 : 0 ≤ delta) (h64 : delta < 2 ^ 64) :
    ∃ a b : Word, asS64 a - asS64 b = delta := by
  refine ⟨wrap64 (delta - 2 ^ 63), BitVec.intMin 64, ?_⟩
  rw [asS64, asS64, wrap64, BitVec.toInt_ofInt_eq_self (by decide) (by omega) (by omega), BitVec.toInt_intMin_of_pos (by decide)]
  omega

/-- Settles O55: a small difference is exact, and a difference below 2^64 is one of two s64 times. -/
theorem halfPeriodValue : Obligations.HalfPeriodValue := by
  refine ⟨⟨f64Value_million, fun _ _ => halfPeriod_of_rne⟩, fun _ => halfPeriod_exact, fun delta hdelta h64 => ?_⟩
  obtain ⟨a, b, rfl⟩ := exists_asS64_sub_eq (le_trans (by decide) hdelta) h64
  obtain ⟨half, hhalf, hbounded⟩ := halfPeriod_ok a b
  exact ⟨half, hhalf, hbounded.1, halfPeriod_positive hdelta hbounded hhalf, tenth_le_halfPeriod hdelta hhalf⟩

/-! ## SENSOR -/

theorem extract_append_kind (high : BitVec 48) (kind : BitVec 16) : (high ++ kind : BitVec 64).extractLsb' 0 16 = kind :=
  BitVec.extractLsb'_append_eq_right

/-- Settles O35: a write is read back in its entry and leaves the others. -/
theorem sensorStores : Obligations.SensorStores := by
  refine ⟨fun high kind value c d => ?_, fun kind value s h => ?_⟩
  · rw [decode_sensor, extract_append_kind]
  · have hk : s.sp.hasKind kind = true := decide_eq_true h
    exact ⟨_, exec_sensor_of_hasKind value hk, rfl, s.sp.sensWrite_same kind value hk, s.sp.sensWrite_other kind value⟩

/-! ## The steps of SP_ADD -/

theorem exists_of_map_eq_ok {α β : Type} {x : Except Fault α} {f : α → β} {b : β} (h : x.map f = .ok b) :
    ∃ a, x = .ok a ∧ f a = b := by
  cases x with
  | error e => cases h
  | ok a => cases h; exact ⟨a, rfl, rfl⟩

/-- The Reading that AddReading writes to the ring: the count adjusted by the tare (41_signal_processor.md R152). -/
def Reading.tared (r : Reading) (factor : Int) (tare : Word) : Reading :=
  ⟨r.total, tareAdjusted factor r.count tare, r.drift⟩

/-- Where AddReading answers, its steps do: the write and the crossing test, the peak test, the record. -/
theorem Processor.addReading_steps {p q : Processor} {factor : Int} {r : Reading} {tare : Word} {evs : List Event}
    (h : p.addReading factor r tare = .ok (q, evs)) : ∃ c a, (p.histWrite (r.tared factor tare)).crossing = .ok (c, a) ∧
      c.peak = .ok q ∧ q.cycleEvents a r = .ok evs := by
  unfold Processor.addReading at h
  split at h
  · cases h
  next c a hc =>
    split at h
    · cases h
    next q' hq =>
      obtain ⟨evs', he, heq⟩ := exists_of_map_eq_ok h
      cases heq
      exact ⟨c, a, hc, hq, he⟩

/-- SP_ADD in its steps. -/
theorem exec_spAdd_steps (total count drift tare : Word) (s : State) (hb : s.sp.floatBounds) :
    ∃ c a q evs, exec (.spAdd total count drift tare) s = .next ((s.consume.withSp q).emit evs) ∧
      (s.sp.histWrite (Reading.tared ⟨total, count, drift⟩ s.tareFactor tare)).crossing = .ok (c, a) ∧
      c.peak = .ok q ∧ q.cycleEvents a ⟨total, count, drift⟩ = .ok evs := by
  obtain ⟨q, evs, hq, hnext⟩ := exec_spAdd_next total count drift tare s hb
  obtain ⟨c, a, hsteps⟩ := Processor.addReading_steps hq
  exact ⟨c, a, q, evs, hnext, hsteps⟩

/-- The first reading is written, and that is all. -/
theorem exec_spAdd_first (total count drift tare : Word) {s : State} (h : s.sp.nfill = 0) :
    exec (.spAdd total count drift tare) s =
      .next (s.consume.withSp (s.sp.histWrite (Reading.tared ⟨total, count, drift⟩ s.tareFactor tare))) := by
  rw [exec, execSpAdd, State.addReading, State.consume_sp, Processor.addReading_first _ _ _ _ h]
  exact congrArg _ (State.emit_nil _)

/-- With an entry before the new one, the crossing test is between the two. -/
theorem Processor.crossing_histWrite {p : Processor} {prev : Reading} (cur : Reading) (h : 1 ≤ p.nfill)
    (h1 : p.histRead 1 = .ok prev) : (p.histWrite cur).crossing = (p.histWrite cur).crossBetween prev cur :=
  Processor.crossing_reads _ (by simp only [Processor.histWrite_nfill, Config.histN]; omega)
    ((p.histRead_succ_histWrite cur le_rfl (by decide) h).trans h1) (p.histRead_one_histWrite cur)

/-- The crossing test touches the crossing and the half-periods only. -/
theorem Processor.crossing_frame {p c : Processor} {a : Option Bool} (h : p.crossing = .ok (c, a)) :
    c.nfill = p.nfill ∧ c.posPeak = p.posPeak ∧ c.negPeak = p.negPeak ∧ c.sens = p.sens ∧
      ∀ k, c.histRead k = p.histRead k := by
  rcases Nat.lt_or_ge p.nfill 2 with hfew | hmany
  · rw [p.crossing_few hfew] at h; cases h; exact ⟨rfl, rfl, rfl, rfl, fun _ => rfl⟩
  · obtain ⟨cur, h1⟩ := p.histRead_some le_rfl (by omega)
    obtain ⟨prev, h2⟩ := p.histRead_some (k := 2) (by decide) hmany
    obtain ⟨c', a', hc, -, -, hfill, hpos, hneg, hsens, hread, -⟩ := p.crossBetween_ok prev cur
    rw [p.crossing_reads hmany h2 h1, hc] at h
    cases h
    exact ⟨hfill, hpos, hneg, hsens, hread⟩

/-- The peak test touches the peaks only. -/
theorem Processor.peak_frame {p q : Processor} (h : p.peak = .ok q) :
    q.lastZc = p.lastZc ∧ q.posHalf = p.posHalf ∧ q.negHalf = p.negHalf ∧ q.sens = p.sens := by
  rcases Nat.lt_or_ge p.nfill 3 with hfew | hmany
  · rw [p.peak_few hfew] at h; cases h; exact ⟨rfl, rfl, rfl, rfl⟩
  · obtain ⟨e1, h1⟩ := p.histRead_some le_rfl (by omega)
    obtain ⟨e2, h2⟩ := p.histRead_some (k := 2) (by decide) (by omega)
    obtain ⟨e3, h3⟩ := p.histRead_some (k := 3) (by decide) hmany
    obtain ⟨q', hq, -, -, -, hzc, hpos, hneg, hsens, -⟩ := p.peakWindow_ok e3 e2 e1
    rw [p.peak_reads hmany h3 h2 h1, hq] at h
    cases h
    exact ⟨hzc, hpos, hneg, hsens⟩

/-- Settles O26: AddReading writes the ring once, and SP_ADD replaces the processor only. -/
theorem spAddAppendsTaredReading : Obligations.SpAddAppendsTaredReading := by
  refine ⟨fun _ _ _ _ => rfl, fun total count drift tare s hb => ?_⟩
  obtain ⟨q, evs, hq, hnext⟩ := exec_spAdd_next total count drift tare s hb
  obtain ⟨hhist, hwr, hfill, hsens, hread, -, -⟩ := s.sp.addReading_spec hq
  exact ⟨_, hnext, (hread 1).trans (s.sp.histRead_one_histWrite _),
    fun k h1 hk hfilled => (hread (k + 1)).trans (s.sp.histRead_succ_histWrite _ h1 hk hfilled),
    hhist, congrArg Fin.val hwr, hfill, hsens, rfl, rfl, rfl, rfl, rfl⟩

/-! ## Crossings -/

/-- The sign of the angle is the sign of the count. -/
theorem crossingOf_eq (prev cur : Reading) : crossingOf prev cur =
    if prev.count.toInt ≤ 0 ∧ 0 < cur.count.toInt then some true
    else if 0 ≤ prev.count.toInt ∧ cur.count.toInt < 0 then some false else none := by
  have hangle (e : Reading) : angle e = e.count.toInt * 2 := rfl
  exact if_congr (by rw [hangle, hangle]; omega) rfl (if_congr (by rw [hangle, hangle]; omega) rfl rfl)

theorem crossingOf_rising (prev cur : Reading) :
    crossingOf prev cur = some true ↔ prev.count.toInt ≤ 0 ∧ 0 < cur.count.toInt := by
  rw [crossingOf_eq]; split_ifs <;> simp [*]

theorem crossingOf_falling (prev cur : Reading) :
    crossingOf prev cur = some false ↔ 0 ≤ prev.count.toInt ∧ cur.count.toInt < 0 := by
  rw [crossingOf_eq]; split_ifs with hrising hfalling
  · simp only [Option.some.injEq, Bool.true_eq_false, false_iff]; omega
  · simp [hfalling]
  · simp [hfalling]

theorem Processor.debounced_iff (p : Processor) (cur : Reading) : p.debounced (timeOf cur) = true ↔
    p.lastZc.valid = true ∧ cur.total.toInt - p.lastZc.time.toInt < 100000 := by
  rw [Processor.debounced, Bool.and_eq_true, decide_eq_true_iff]; rfl

theorem crossingOf_isSome (prev cur : Reading) : (crossingOf prev cur).isSome = true ↔
    (prev.count.toInt ≤ 0 ∧ 0 < cur.count.toInt) ∨ (0 ≤ prev.count.toInt ∧ cur.count.toInt < 0) := by
  rw [crossingOf_eq]; split_ifs <;> simp [*]

section
variable {p c : Processor} {prev cur : Reading} {a : Option Bool} {half : F64}

/-- The crossing test in one equation per field it can change. -/
theorem Processor.crossBetween_fields {rising falling ignored : Prop} [Decidable rising] [Decidable falling]
    [Decidable ignored] (h : p.crossBetween prev cur = .ok (c, a))
    (hhalf : halfPeriod (timeOf cur - asS64 p.lastZc.time) = .ok half) (hrising : crossingOf prev cur = some true ↔ rising)
    (hfalling : crossingOf prev cur = some false ↔ falling) (hignored : p.debounced (timeOf cur) = true ↔ ignored) :
    c.lastZc = (if rising ∧ ¬ignored then ⟨true, cur.total, true⟩
        else if falling ∧ ¬ignored then ⟨true, cur.total, false⟩ else p.lastZc) ∧
      c.posHalf = (if rising ∧ ¬ignored ∧ p.lastZc.valid = true then half else p.posHalf) ∧
      c.negHalf = (if falling ∧ ¬ignored ∧ p.lastZc.valid = true then half else p.negHalf) := by
  simp only [← hrising, ← hfalling, ← hignored]
  rcases p.crossBetween_cases prev cur with ⟨b, half', hb, hd, hhalf', -, hq⟩ | ⟨hnone, hq⟩ <;> rw [hq] at h <;> cases h
  · rw [hhalf] at hhalf'; cases hhalf'
    cases b <;> by_cases hv : p.lastZc.valid = true <;> simp [hb, hd, hv]
  · rcases hnone with hb | hd
    · simp [hb]
    · simp [hd]

/-- It accepts what is a crossing outside the debounce window, and then there is a last crossing. -/
theorem Processor.crossBetween_accepts (h : p.crossBetween prev cur = .ok (c, a)) :
    (a.isSome = true ↔ (crossingOf prev cur).isSome = true ∧ ¬p.debounced (timeOf cur) = true) ∧
      (a.isSome = true → c.lastZc.valid = true) := by
  rcases p.crossBetween_cases prev cur with ⟨b, half', hb, hd, -, -, hq⟩ | ⟨hb | hd, hq⟩ <;> rw [hq] at h <;> cases h
  · simp [hb, hd]
  · simp [hb]
  · simp [hd]

end

/-- Settles O28: the peak test and the record leave what the crossing test has set. -/
theorem crossingRule : Obligations.CrossingRule := by
  refine ⟨fun total count drift tare s h => ⟨_, exec_spAdd_first total count drift tare h, rfl, rfl, rfl⟩, ?_⟩
  intro total count drift tare s prev hb hfill hprev c rising falling elapsed ignored
  obtain ⟨p, a, q, evs, hnext, hcross, hpeak, -⟩ := exec_spAdd_steps total count drift tare s hb
  obtain ⟨hzc, hpos, hneg, -⟩ := Processor.peak_frame hpeak
  rw [Processor.crossing_histWrite _ hfill hprev] at hcross
  obtain ⟨half, hhalf, -⟩ := halfPeriod_ok total s.sp.lastZc.time
  refine ⟨_, half, hnext, hhalf, ?_⟩
  simp only [State.emit_sp, State.withSp_sp]
  rw [hzc, hpos, hneg]
  exact Processor.crossBetween_fields hcross hhalf (crossingOf_rising ..) (crossingOf_falling ..) (Processor.debounced_iff ..)

/-! ## The record -/

/-- Step 5 on an accepted crossing: this hardware's polarity parameter allows both. -/
theorem Processor.cycleEvents_some (p : Processor) (b : Bool) (r : Reading) :
    p.cycleEvents (some b) r = if p.recordReady then (p.cycleEvent r).map fun e => [e] else .ok [] := rfl

theorem Processor.recordReady_iff {p : Processor} (h : p.lastZc.valid = true) : p.recordReady = true ↔
    p.posPeak.valid = true ∧ p.negPeak.valid = true ∧ f64Positive p.posHalf = true ∧ f64Positive p.negHalf = true := by
  simp [Processor.recordReady, h, and_assoc]

theorem Processor.cycleEvent_fields {p : Processor} {r : Reading} {e : Event} (h : p.cycleEvent r = .ok e) :
    ∃ amplitude period, f64Sub p.posPeak.position p.negPeak.position = .ok amplitude ∧
      f64Add p.posHalf p.negHalf = .ok period ∧ e = .cycle r.total r.drift amplitude period p.sens := by
  unfold Processor.cycleEvent at h
  split at h
  · cases h
  · cases h
  next amplitude period ha hp => cases h; exact ⟨amplitude, period, ha, hp, rfl⟩

/-- What the record step adds to the output, by its condition. -/
theorem Processor.append_cycleEvents (out : List Event) {p : Processor} {a : Option Bool} {r : Reading} {evs : List Event}
    {crosses ignored : Prop} [Decidable crosses] [Decidable ignored] (h : p.cycleEvents a r = .ok evs)
    (ha : a.isSome = true ↔ crosses ∧ ¬ignored) (hz : a.isSome = true → p.lastZc.valid = true) :
    if crosses ∧ ¬ignored ∧ p.posPeak.valid = true ∧ p.negPeak.valid = true ∧ f64Positive p.posHalf = true ∧
        f64Positive p.negHalf = true then
      ∃ amplitude period, f64Sub p.posPeak.position p.negPeak.position = .ok amplitude ∧
        f64Add p.posHalf p.negHalf = .ok period ∧ out ++ evs = out ++ [.cycle r.total r.drift amplitude period p.sens]
    else out ++ evs = out := by
  cases a with
  | none =>
    cases h
    rw [if_neg]
    · exact List.append_nil out
    · rintro ⟨hc, hi, -⟩
      exact absurd (ha.2 ⟨hc, hi⟩) (by decide)
  | some b =>
    obtain ⟨hc, hi⟩ := ha.1 rfl
    have hready_iff := Processor.recordReady_iff (hz rfl)
    rw [Processor.cycleEvents_some] at h
    split at h
    next hready =>
      obtain ⟨e, he, rfl⟩ := exists_of_map_eq_ok h
      obtain ⟨amplitude, period, hamp, hper, rfl⟩ := Processor.cycleEvent_fields he
      rw [if_pos ⟨hc, hi, hready_iff.1 hready⟩]
      exact ⟨amplitude, period, hamp, hper, rfl⟩
    next hready =>
      cases h
      rw [if_neg fun ⟨_, _, hr⟩ => hready (hready_iff.2 hr)]
      exact List.append_nil out

/-- Settles O34: a record needs an accepted crossing, and then there is a last crossing. -/
theorem cycleRule : Obligations.CycleRule := by
  refine ⟨⟨rfl, fun _ => ⟨rfl, rfl, rfl⟩⟩,
    fun total count drift tare s h => ⟨_, exec_spAdd_first total count drift tare h, rfl⟩, ?_⟩
  intro total count drift tare s prev hb hfill hprev c crosses ignored
  obtain ⟨p, a, q, evs, hnext, hcross, hpeak, hevs⟩ := exec_spAdd_steps total count drift tare s hb
  obtain ⟨hzc, -, -, hsens⟩ := Processor.peak_frame hpeak
  obtain ⟨-, -, -, hsens', -⟩ := Processor.crossing_frame hcross
  rw [Processor.crossing_histWrite _ hfill hprev] at hcross
  obtain ⟨haccepts, hvalid⟩ := Processor.crossBetween_accepts hcross
  rw [crossingOf_isSome, Processor.debounced_iff] at haccepts
  rw [← hzc] at hvalid
  have hrecord := Processor.append_cycleEvents s.out (crosses := crosses) (ignored := ignored) hevs haccepts hvalid
  rw [hsens, hsens'] at hrecord
  exact ⟨_, hnext, hrecord⟩

/-! ## Peaks -/

/-- What a stored peak is after a fit: the accepted vertex, its time truncated and its value rounded, or the peak there was
(41_signal_processor.md R163). -/
def Peak.StoredFrom (old : Peak) (fitted : Option Vertex) (new : Peak) : Prop :=
  match fitted with
  | none => new = old
  | some v => ∃ position, rne v.value = .ok position ∧ new = ⟨true, wrap64 (truncRat v.time), position⟩

theorem Vertex.toPeak_storedFrom {v : Vertex} {peak : Peak} (old : Peak) (h : v.toPeak = .ok peak) :
    old.StoredFrom (some v) peak := by
  obtain ⟨position, hrne, rfl⟩ := exists_of_map_eq_ok h
  exact ⟨position, hrne, rfl⟩

/-- The fit of a positive middle extremum, the third input biased (41_signal_processor.md R160, R163). -/
def maximumFit (e1 e2 e3 : Reading) : Option Vertex :=
  if angle e2 > angle e1 ∧ angle e2 > angle e3 ∧ angle e2 > 0 then
    fit Config.interpArith (timeOf e1) (angle e1) (timeOf e2) (angle e2) (timeOf e3) (angle e3 + Config.peakBias)
  else none

/-- The fit of a negative middle extremum, the first two inputs biased (41_signal_processor.md R160, R164). -/
def minimumFit (e1 e2 e3 : Reading) : Option Vertex :=
  if angle e2 < angle e1 ∧ angle e2 < angle e3 ∧ angle e2 < 0 then
    fit Config.interpArith (timeOf e1) (angle e1 + Config.peakBias) (timeOf e2) (angle e2 + Config.peakBias) (timeOf e3)
      (angle e3)
  else none

theorem positiveWindow_iff (p1 p2 p3 : Int) : positiveWindow p1 p2 p3 = true ↔ p2 > p1 ∧ p2 > p3 ∧ p2 > 0 := by
  simp [positiveWindow, and_assoc]

theorem negativeWindow_iff (p1 p2 p3 : Int) : negativeWindow p1 p2 p3 = true ↔ p2 < p1 ∧ p2 < p3 ∧ p2 < 0 := by
  simp [negativeWindow, and_assoc]

/-- The peak window stores what the two fits accept; at most one of them is tried. -/
theorem Processor.peakWindow_peaks {p q : Processor} {e1 e2 e3 : Reading} (h : p.peakWindow e1 e2 e3 = .ok q) :
    p.posPeak.StoredFrom (maximumFit e1 e2 e3) q.posPeak ∧ p.negPeak.StoredFrom (minimumFit e1 e2 e3) q.negPeak := by
  simp only [Processor.peakWindow] at h
  unfold maximumFit minimumFit
  split at h
  next hmax =>
    rw [positiveWindow_iff] at hmax
    rw [if_pos hmax, if_neg (by omega)]
    split at h
    next v hfit =>
      obtain ⟨peak, hpeak, rfl⟩ := exists_of_map_eq_ok h
      exact ⟨hfit ▸ Vertex.toPeak_storedFrom _ hpeak, rfl⟩
    next hfit => cases h; exact ⟨hfit ▸ rfl, rfl⟩
  next hmax =>
    rw [positiveWindow_iff] at hmax
    rw [if_neg hmax]
    split at h
    next hmin =>
      rw [negativeWindow_iff] at hmin
      rw [if_pos hmin]
      split at h
      next v hfit =>
        obtain ⟨peak, hpeak, rfl⟩ := exists_of_map_eq_ok h
        exact ⟨rfl, hfit ▸ Vertex.toPeak_storedFrom _ hpeak⟩
      next hfit => cases h; exact ⟨rfl, hfit ▸ rfl⟩
    next hmin =>
      rw [negativeWindow_iff] at hmin
      rw [if_neg hmin]
      cases h
      exact ⟨rfl, rfl⟩

/-- Settles O29: the crossing test before the peak test leaves the ring and the peaks. -/
theorem peakRule : Obligations.PeakRule := by
  refine ⟨fun total count drift tare s hb hfew => ?_, ?_⟩
  · obtain ⟨p, a, q, evs, hnext, hcross, hpeak, -⟩ := exec_spAdd_steps total count drift tare s hb
    obtain ⟨hfill, hpos, hneg, -, -⟩ := Processor.crossing_frame hcross
    rw [Processor.peak_few _ (by rw [hfill, Processor.histWrite_nfill]; omega)] at hpeak
    cases hpeak
    exact ⟨_, hnext, hpos, hneg⟩
  · intro total count drift tare s e1 e2 hb hmany h1 h2 p1 p2 p3 maximum minimum
    obtain ⟨p, a, q, evs, hnext, hcross, hpeak, -⟩ := exec_spAdd_steps total count drift tare s hb
    obtain ⟨hfill, hpos, hneg, -, hread⟩ := Processor.crossing_frame hcross
    rw [p.peak_reads (by rw [hfill, Processor.histWrite_nfill, Config.histN]; omega)
      (((hread 3).trans (s.sp.histRead_succ_histWrite _ (by decide) (by decide) hmany)).trans h1)
      (((hread 2).trans (s.sp.histRead_succ_histWrite _ le_rfl (by decide) (by omega))).trans h2)
      ((hread 1).trans (s.sp.histRead_one_histWrite _))] at hpeak
    obtain ⟨hmax, hmin⟩ := Processor.peakWindow_peaks hpeak
    rw [hpos] at hmax
    rw [hneg] at hmin
    exact ⟨_, hnext, hmax, hmin⟩

end Sys2Proof.Machine

/-! Proofs of the statements on the control surface: SP_ADD takes its tare from its operand, and what TARE_SET and TARE_GET do
(42_control.md). -/

namespace Sys2Proof.Machine

/-! ## SP_ADD and the tare register -/

section
variable {total count drift tare : Word} {s : State}

/-- Where AddReading answers on the processor, SP_ADD leaves its processor and emits its events. -/
theorem exec_spAdd_of_ok {q : Processor} {evs : List Event}
    (h : s.sp.addReading s.tareFactor ⟨total, count, drift⟩ tare = .ok (q, evs)) :
    exec (.spAdd total count drift tare) s = .next ((s.consume.withSp q).emit evs) := by
  rw [exec, execSpAdd, State.addReading, State.consume_sp, State.consume_tareFactor, h]

/-- Where AddReading faults, SP_ADD does. -/
theorem exec_spAdd_of_error {f : Fault} (h : s.sp.addReading s.tareFactor ⟨total, count, drift⟩ tare = .error f) :
    exec (.spAdd total count drift tare) s = .fault f := by
  rw [exec, execSpAdd, State.addReading, State.consume_sp, State.consume_tareFactor, h]

end

/-- Settles O41: AddReading is given the processor, the factor and the operands; the register is not among them, and consuming,
storing the processor and emitting leave it. -/
theorem spAddIgnoresTareRegister : Obligations.SpAddIgnoresTareRegister := by
  intro total count drift tare value s
  cases h : s.sp.addReading s.tareFactor ⟨total, count, drift⟩ tare with
  | ok answer =>
    obtain ⟨q, evs⟩ := answer
    have hs : exec (.spAdd total count drift tare) s = .next ((s.consume.withSp q).emit evs) := exec_spAdd_of_ok h
    have hs' : exec (.spAdd total count drift tare) (s.withTare value) =
        .next (((s.consume.withSp q).emit evs).withTare value) := exec_spAdd_of_ok h
    rw [hs]
    exact ⟨fun _ ht => by cases ht; exact hs', nofun⟩
  | error f =>
    have hs : exec (.spAdd total count drift tare) s = .fault f := exec_spAdd_of_error h
    have hs' : exec (.spAdd total count drift tare) (s.withTare value) = .fault f := exec_spAdd_of_error h
    rw [hs]
    exact ⟨nofun, fun _ hf => by cases hf; exact hs'⟩

/-! ## TARE_SET and TARE_GET -/

theorem exec_tareSet (value : Word) (s : State) : exec (.tareSet value) s = .next (s.consume.withTare value) := rfl

theorem exec_tareGet (s : State) : exec .tareGet s = .next (s.consume.emit [.tareValue s.tare]) := rfl

theorem decode_tareGet (a b c d : Word) : decode ⟨0x7, a, b, c, d⟩ = .tareGet := rfl

/-- Settles O36: consuming writes the port only, and storing the register the register only. -/
theorem tareSetResult : Obligations.TareSetResult := ⟨decode_tareSet, exec_tareSet⟩

/-- Settles O37: consuming writes the port only, and emitting the output only. -/
theorem tareGetResult : Obligations.TareGetResult := ⟨decode_tareGet, fun _ => rfl, exec_tareGet⟩

end Sys2Proof.Machine

/-! Proofs of the statements on exceptions: which instructions can fault, and the events each transaction class emits
(60_exceptions.md). -/

namespace Sys2Proof.Machine

/-! ## Completion and the one fault -/

/-- A data frame waits, or completes, or faults in AddReading. -/
theorem exec_dataFrame_completes_or_rneFault (dir : Bool) (ts : Stamp) (arrival : Word) (s : State) :
    completes (exec (dataFrame dir ts arrival) s) ∨ exec (dataFrame dir ts arrival) s = .fault .rneOutOfRange := by
  by_cases hc : s.dec.link = .connected
  · exact (exec_dataFrame_eq dir ts arrival s hc).imp_left fun ⟨_, _, _, hnext⟩ => ⟨_, hnext⟩
  · exact .inl ⟨s, exec_dataFrame_held dir ts arrival s (Link.eq_disconnected hc)⟩

/-- Every outcome an instruction has, in any state: AddReading's fault is the only one. -/
theorem exec_completes_or_rneFault (i : Instr) (s : State) : completes (exec i s) ∨ exec i s = .fault .rneOutOfRange := by
  cases i with
  | spAdd total count drift tare =>
    exact (exec_spAdd_eq total count drift tare s).imp_left fun ⟨_, _, _, hnext⟩ => ⟨_, hnext⟩
  | frameDataPos ts arrival => exact exec_dataFrame_completes_or_rneFault true ts arrival s
  | frameDataNeg ts arrival => exact exec_dataFrame_completes_or_rneFault false ts arrival s
  | reservedZero | connect | frameSentinel | frameBadcsum | rderr | sensor | tareSet | tareGet | reservedHigh =>
    exact .inl (exec_completes (.inr rfl))

/-- A step idles, or its instruction completes. -/
theorem step_completes {s : State} (hb : s.sp.floatBounds) : completes (step s) := by
  cases hp : s.presented with
  | none => exact ⟨s, by rw [step, hp]⟩
  | some t => rw [step_of_presented hp]; exact exec_completes (.inl hb)

/-- Settles O44: an instruction completes or has the fault of `rne`, so it has no other fault and no refusal. -/
theorem blockNeverFaults : Obligations.BlockNeverFaults := by
  refine ⟨fun _ _ => exec_completes, fun _ => step_completes, fun i s f hf => ?_, fun i s r hr => ?_⟩
  · rcases exec_completes_or_rneFault i s with ⟨_, hnext⟩ | hfault
    · rw [hnext] at hf; cases hf
    · rw [hfault] at hf; cases hf; rfl
  · rcases exec_completes_or_rneFault i s with ⟨_, hnext⟩ | hfault
    · rw [hnext] at hr; cases hr
    · rw [hfault] at hr; cases hr

/-! ## The events -/

section
variable (s : State)

/-- CONNECT emits CONNECTED, after a DISCONNECTED where the link was up. -/
theorem State.connect_out : s.connect.out = s.out ++
    if s.dec.link = .connected then [.status .disconnected false, .status .connected false]
    else [.status .connected false] := by
  unfold State.connect
  split <;> simp

/-- A read error emits ERROR, or the breaker's terminal ERROR and DISCONNECTED. -/
theorem State.readError_out : s.readError.out = s.out ++
    if s.dec.errCount + 1 < 10 then [.status .error false]
    else [.status .error true, .status .disconnected false] := by rw [State.readError_eq]; rfl

end

/-- AddReading emits nothing, or one CYCLE with the bank as it was. -/
theorem Processor.addReading_events {p q : Processor} {factor : Int} {r : Reading} {tare : Word} {evs : List Event}
    (h : p.addReading factor r tare = .ok (q, evs)) :
    evs = [] ∨ ∃ amplitude period, evs = [.cycle r.total r.drift amplitude period p.sens] := by
  obtain ⟨-, -, -, hsens, -, -, hevs⟩ := p.addReading_spec h
  refine hevs.imp_right ?_
  rintro ⟨amplitude, period, -, -, hcycle⟩
  exact ⟨amplitude, period, by rw [hcycle, hsens]⟩

/-- Settles O43, from everything an instruction can do: the alternatives are the classes, and a held read's list is empty. -/
theorem eventsOfEachClass : Obligations.EventsOfEachClass := by
  refine ⟨⟨rfl, rfl, rfl, rfl⟩, fun i s t h => ?_⟩
  rcases exec_cases h with ⟨hi, hdown, rfl⟩ | ⟨rfl, rfl⟩ | ⟨_, rfl, hc, rfl⟩ | ⟨_, _, rfl, hc, rfl⟩ |
    ⟨dir, ts, arrival, _, evs, rfl, hc, hq, rfl⟩ | ⟨rfl, hc, rfl⟩ | ⟨_, _, _, _, _, evs, rfl, hq, rfl⟩ |
    ⟨_, _, rfl, -, rfl⟩ | ⟨-, rfl, hi⟩ | ⟨_, rfl, rfl⟩ | ⟨rfl, rfl⟩
  · refine ⟨[], (List.append_nil _).symm, ?_⟩
    cases i with
    | frameSentinel | frameBadcsum | frameDataPos | frameDataNeg | rderr => simp [hdown]
    | reservedZero | connect | spAdd | sensor | tareSet | tareGet | reservedHigh => cases hi
  · exact ⟨_, s.consume.connect_out, (ite_eq_or_eq _ _ _).symm⟩
  · exact ⟨_, rfl, (if_pos hc).symm⟩
  · exact ⟨_, rfl, (if_pos hc).symm⟩
  · have hevs := Processor.addReading_events hq
    refine ⟨_, rfl, ?_⟩
    cases dir <;>
      exact (if_pos hc).mpr ⟨_, hevs.imp (congrArg _) fun ⟨a, p, hcycle⟩ => ⟨a, p, congrArg _ hcycle⟩⟩
  · exact ⟨_, s.consume.readError_out, (if_pos hc).mpr (ite_eq_or_eq _ _ _)⟩
  · exact ⟨evs, rfl, Processor.addReading_events hq⟩
  · exact ⟨[], (List.append_nil _).symm, rfl⟩
  · refine ⟨[], (List.append_nil _).symm, ?_⟩
    rcases hi with rfl | ⟨_, rfl⟩ | ⟨_, _, rfl⟩ <;> rfl
  · exact ⟨[], (List.append_nil _).symm, rfl⟩
  · exact ⟨_, rfl, rfl⟩

end Sys2Proof.Machine

/-! Proofs of the statements on power-on reset (70_reset_and_hazards.md R251). -/

namespace Sys2Proof.Machine

/-- The host's reset and every launch are `State.resetWith`, at values of the OPEN parameters that are legal. -/
theorem State.eq_resetWith {s : State} (h : s = State.reset ∨ ∃ factor kinds, State.launch factor kinds = .ok s) :
    ∃ factor kinds legal, s = State.resetWith factor kinds legal := by
  rcases h with rfl | ⟨factor, kinds, hs⟩
  · exact ⟨_, _, _, rfl⟩
  · exact ⟨factor, kinds, State.launch_ok hs⟩

/-! ## The reset groups meet their invariants -/

/-- Reset is below the error limit, and every integer is at the value the invariant asks of an unsynchronised decoder. -/
theorem Decoder.inv_reset : Decoder.reset.inv := by decide

section
variable (kinds : Nat) (legal : 1 ≤ kinds ∧ kinds ≤ 2 ^ 16)

/-- The empty ring is in canonical form: cursor and fill count are both 0. -/
theorem Processor.ringInv_reset : (Processor.reset kinds legal).ringInv := ⟨Nat.zero_le _, fun _ => rfl⟩

theorem Processor.length_sens_reset : (Processor.reset kinds legal).sens.length = kinds := List.length_replicate

/-- The legal numbers of sensor kinds are the sizes the invariant allows the bank (00_scope.md R8). -/
theorem Processor.bankInv_reset : (Processor.reset kinds legal).bankInv := by
  rw [Processor.bankInv, Processor.length_sens_reset]
  exact legal

/-- The half-periods are +0.0 by R251, and the positions of the invalid peaks by the model's choice (log 10). -/
theorem Processor.floatBounds_reset : (Processor.reset kinds legal).floatBounds :=
  have hzero : f64Bounded 0 := f64Bounded_zero false
  ⟨hzero, hzero, hzero, hzero⟩

theorem Processor.floatInv_reset : (Processor.reset kinds legal).floatInv :=
  ⟨Processor.floatBounds_reset kinds legal, .inl rfl, .inl rfl, fun _ => ⟨rfl, rfl⟩⟩

theorem Processor.sens_reset_eq_zero : ∀ v ∈ (Processor.reset kinds legal).sens, v = 0 :=
  fun _ => List.eq_of_mem_replicate

end

/-! ## The statements -/

/-- Settles O42: every element but the bank has its value by definition, and the bank holds zeros whatever its size. -/
theorem resetValues : Obligations.ResetValues := by
  intro s hs
  obtain ⟨factor, kinds, legal, rfl⟩ := State.eq_resetWith hs
  have hkinds := (Config.legal_iff factor kinds).1 legal
  exact ⟨rfl, rfl, rfl, rfl, rfl, rfl, rfl, rfl, Processor.sens_reset_eq_zero kinds hkinds, rfl, rfl⟩

/-- Settles O50: each reset group meets its own invariant, and legality of the number of sensor kinds is the bank's. -/
theorem resetMeetsInvariants : Obligations.ResetMeetsInvariants := by
  intro s hs
  obtain ⟨factor, kinds, legal, rfl⟩ := State.eq_resetWith hs
  have hkinds := (Config.legal_iff factor kinds).1 legal
  exact ⟨Decoder.inv_reset, Processor.ringInv_reset kinds hkinds, Processor.bankInv_reset kinds hkinds,
    Processor.floatInv_reset kinds hkinds⟩

end Sys2Proof.Machine
